-- ==== Sys2Proof/Word.lean ====
section
/-! DEFINITION. The two widths of the pokunes 6502 core (00_scope.md R4, R6): a byte and a 16-bit word. -/

namespace Sys2Proof

/-- An 8-bit unsigned value (R6). -/
abbrev Byte := BitVec 8

/-- A 16-bit unsigned value; addresses are words, and `+` on words is the spec's `+16` (R6, R8). -/
abbrev Word := BitVec 16

end Sys2Proof
end

