-- ==== Sys2Proof/Syntax.lean ====
section
/-! DEFINITION. The syntax of the two-opcode subset (30_encoding.md R54) and of the addressing modes the resolver knows
(40_addressing_resolver.md R65, R74). -/

namespace Sys2Proof

/-- The mnemonics of the dispatch table, exactly the strings "SEI" and "JMP" (R59, R110), as a closed type (log entry 7). -/
inductive Mnemonic where
  | sei
  | jmp
deriving DecidableEq, Repr

/-- The mnemonic as the table prints it. -/
def Mnemonic.text : Mnemonic → String
  | .sei => "SEI"
  | .jmp => "JMP"

/-- The addressing-mode tags: exactly the seven of R66 to R72 (R74). Only `implied` and `absolute` are used by a table entry;
the other five are latent (R76). -/
inductive Mode where
  | implied
  | accumulator
  | immediate
  | zeroPage
  | relative
  | absolute
  | absoluteX
deriving DecidableEq, Repr

/-- What the resolver yields (R65). -/
inductive Operand where
  /-- nothing: Implied -/
  | noOperand
  /-- stands for the accumulator, which does not exist and carries no value: Accumulator (R67) -/
  | accOperand
  /-- a byte: Immediate, ZeroPage -/
  | value8 (v : Byte)
  /-- a sign-extended displacement: Relative -/
  | disp (d : Word)
  /-- a 16-bit address, not dereferenced: Absolute -/
  | addr16 (w : Word)
  /-- a base address that waits for the X index, which does not exist: AbsoluteX (R72) -/
  | indexedBase (w : Word)
deriving DecidableEq, Repr

/-- A decoded instruction: one constructor per row of the opcode table. -/
inductive Instr where
  /-- `SEI`, Set Interrupt Disable, Implied (42_flag_instructions.md R95) -/
  | sei
  /-- `JMP` absolute with its 16-bit target (43_control_transfer.md R100) -/
  | jmp (target : Word)
deriving DecidableEq, Repr

/-- The mnemonic of an instruction. -/
def Instr.mnemonic : Instr → Mnemonic
  | .sei => .sei
  | .jmp _ => .jmp

/-- The addressing mode of an instruction (R54). -/
def Instr.mode : Instr → Mode
  | .sei => .implied
  | .jmp _ => .absolute

/-- An entry of the dispatch table (41_dispatch_and_effects.md R80): the opcode byte, the mnemonic and the addressing mode. The
entry's effect function is named by its mnemonic: `Machine.runEffect`. -/
structure TableEntry where
  opcode   : Byte
  mnemonic : Mnemonic
  mode     : Mode
deriving DecidableEq, Repr

end Sys2Proof
end

