-- ==== Sys2Proof/WellFormed.lean ====
section
/-! DEFINITION. What is well formed: the wiring of modes to mnemonics (40_addressing_resolver.md R73), a table entry and a
dispatch table (30_encoding.md R55, R57), and an instruction. -/

namespace Sys2Proof

/-- The wiring of R73: `SEI` accepts Implied, `JMP` accepts Absolute, and nothing else is wired. -/
def Mnemonic.accepts : Mnemonic → Mode → Bool
  | .sei, .implied => true
  | .jmp, .absolute => true
  | _, _ => false

/-- An entry is well formed when its mode is one its effect function supports (R57). -/
def TableEntry.wellFormed (e : TableEntry) : Bool :=
  e.mnemonic.accepts e.mode

/-- A table is well formed when every entry is and no two entries have the same opcode byte (R55). -/
abbrev tableWellFormed (table : List TableEntry) : Prop :=
  (∀ e ∈ table, e.wellFormed = true) ∧ (table.map TableEntry.opcode).Nodup

/-- An instruction is well formed when its mode is wired to its mnemonic. The types leave no ill-formed instruction: "The
operand bytes of a legal instruction are unconstrained" (R56). -/
def Instr.wellFormed (i : Instr) : Bool :=
  i.mnemonic.accepts i.mode

end Sys2Proof
end

