-- ==== Sys2Proof/Decode.lean ====
section
/-! DEFINITION. The dispatch table, the decoder and, after it, the encoder (30_encoding.md R50 to R60; 41_dispatch_and_effects.md
R80). The decoder reads a list of bytes in ascending address order; the machine reads the same bytes through the bus
(Machine/Tick.lean), where a byte that cannot be read is a fault. -/

namespace Sys2Proof

/-- `hi ++ lo`: the word with the given high and low byte (R6, R53). -/
def wordOf (hi lo : Byte) : Word := hi ++ lo

/-- Bits 7:0 of a word. -/
def lowByte (w : Word) : Byte := w.extractLsb' 0 8

/-- Bits 15:8 of a word. -/
def highByte (w : Word) : Byte := w.extractLsb' 8 8

/-- The number of operand bytes of a mode (R50). -/
def Mode.operandBytes : Mode → Nat
  | .implied => 0
  | .accumulator => 0
  | .immediate => 1
  | .zeroPage => 1
  | .relative => 1
  | .absolute => 2
  | .absoluteX => 2

/-- The dispatch table: exactly two entries (R54, R80). -/
def instructionTable : List TableEntry :=
  [{ opcode := 0x78, mnemonic := .sei, mode := .implied },
   { opcode := 0x4C, mnemonic := .jmp, mode := .absolute }]

/-- Lookup by the whole opcode byte and by nothing else (R52, R80), in a given table (R88). -/
def lookupIn (table : List TableEntry) (b0 : Byte) : Option TableEntry :=
  table.find? (fun e => e.opcode == b0)

/-- `Table[b0]` of this hardware (R80). -/
def lookup (b0 : Byte) : Option TableEntry :=
  lookupIn instructionTable b0

/-- Why a list of bytes is no instruction. -/
inductive DecodeError where
  /-- the list ends before the instruction does; on the bus this is a read, not an error of the decoder (log entry 8) -/
  | truncated
  /-- the opcode byte is not in the table (R56) -/
  | unsupportedOperation (opcode : Byte)
  /-- the entry's mode is not wired to its mnemonic (R57); dead with the fixed table -/
  | unsupportedAddressingMode (mnemonic : Mnemonic) (mode : Mode)
deriving DecidableEq, Repr

/-- The operand bytes of an entry, and the instruction they complete (R51, R53): format F1 has none, format F3 has `lo` then `hi`. -/
def decodeOperands (e : TableEntry) (rest : List Byte) : Except DecodeError (Instr × List Byte) :=
  match e.mnemonic, e.mode, rest with
  | .sei, .implied, rest => .ok (.sei, rest)
  | .jmp, .absolute, lo :: hi :: rest => .ok (.jmp (wordOf hi lo), rest)
  | .jmp, .absolute, _ => .error .truncated
  | m, mode, _ => .error (.unsupportedAddressingMode m mode)

/-- The decoder (R60): read `b0`, find its row, read the row's operand bytes; answer the instruction and the bytes after it. -/
def decode : List Byte → Except DecodeError (Instr × List Byte)
  | [] => .error .truncated
  | b0 :: rest =>
    match lookup b0 with
    | none => .error (.unsupportedOperation b0)
    | some e => decodeOperands e rest

/-- The encoder: the bytes of an instruction in ascending address order (R51, R54). -/
def encode : Instr → List Byte
  | .sei => [0x78]
  | .jmp target => [0x4C, lowByte target, highByte target]

/-- The bytes of an instruction whose bits are `w`, numbered as the opcode table numbers them (bit 0 is the least significant
bit of the first byte), every bit from `nbits` up being 0, laid out to the longest instruction (three bytes). -/
def tableBytes (nbits w : Nat) : List Byte :=
  let v := w % 2 ^ nbits
  [BitVec.ofNat 8 v, BitVec.ofNat 8 (v / 256), BitVec.ofNat 8 (v / 65536)]

/-- What the decoder reads from such an instruction. -/
def decodeTableWord (nbits w : Nat) : Option Instr :=
  match decode (tableBytes nbits w) with
  | .ok (i, _) => some i
  | .error _ => none

end Sys2Proof
end

