-- ==== Sys2Proof/Config.lean ====
section
/-! DEFINITION. The parameters of the core (00_scope.md R4): what is fixed for every instance of this hardware and is no state
(10_state.md R26). The size and the bytes of the program storage are arguments of `insert_cartridge`, not parameters here. -/

namespace Sys2Proof.Config

/-- `WINDOW_BASE` (R4; 20_memory.md R31): the lowest address of the cartridge window. -/
def windowBase : Nat := 0x8000

/-- `RESET_VECTOR` (R4; 70_reset_and_hazards.md R142): the address of the vector's low byte; the high byte is at the next one. -/
def resetVector : Word := 0xFFFC

/-- The legal values of `STORAGE_SIZE` (R4; 20_memory.md R37). -/
def storageSizes : List Nat := [16384, 32768]

/-- `P_UNUSED_BIT` (10_state.md R16): what bit 5 of the packed status byte reads as. The spec's value for this hardware is 0
(its decision D3). Nothing but the packed view reads it. DESIGN CHOICE of the spec, log entry 6. -/
def pUnusedBit : Bool := false

/-- What an offset that a `Memory` does not list reads as. A matter of REPRESENTATION only: it says how a byte sequence is
written down, and nothing about any byte of the hardware (log entry 3). -/
def unlistedByte : Byte := 0

end Sys2Proof.Config
end

