-- ==== Sys2Proof/Machine/State.lean ====
section
/-! DEFINITION. The state of the core (10_state.md R10), its six faults (60_exceptions.md R110), the reasons the model itself
refuses, and the state at construction (R22). -/

namespace Sys2Proof.Machine

/-- The power status (R21). -/
inductive Power where
  | off
  | on
deriving DecidableEq, Repr

/-- The names of the seven stored flags (R14). -/
inductive Flag where
  | carry
  | zero
  | interruptDisable
  | decimal
  | brk
  | overflow
  | negative
deriving DecidableEq, Repr

/-- The processor status register `P`: seven independent one-bit flags (R14). Bit 5 of the packed view has no storage (R16). -/
structure Status where
  c : Bool
  z : Bool
  i : Bool
  d : Bool
  b : Bool
  v : Bool
  n : Bool
deriving DecidableEq, Repr

/-- A sequence of `size` bytes: the bytes that differ from `Config.unlistedByte`, listed by offset in rising order
(`Memory.wf`, log entry 3). -/
structure Memory where
  size  : Nat
  cells : List Host.Cell
deriving DecidableEq, Repr

/-- The bus's program storage (R20); `rom_size` is the size of `rom`. -/
structure MemoryBus where
  rom : Memory
deriving DecidableEq, Repr

/-- `rom_size` (R10, R20). -/
def MemoryBus.romSize (bus : MemoryBus) : Nat := bus.rom.size

/-- A cartridge image (R21; 00_scope.md R4): the declared size, the bytes, and the trainer-presence flag, which no rule reads
(D12). -/
structure CartridgeImage where
  storageSize    : Nat
  storageBytes   : Memory
  trainerPresent : Bool
deriving DecidableEq, Repr

/-- The whole state of the core (R10): "There is nothing else". -/
structure State where
  /-- the program counter (R11) -/
  pc    : Word
  /-- the processor status register (R14) -/
  p     : Status
  /-- the program storage, absent before the first successful insertion (R20, D13) -/
  bus   : Option MemoryBus
  /-- the power status (R21) -/
  power : Power
  /-- the cartridge slot (R21) -/
  cart  : Option CartridgeImage
deriving DecidableEq, Repr

/-- The six faults of R110, a closed type without numeric codes (D10). Each aborts the operation and changes no state (R117). -/
inductive Fault where
  /-- R111: raised by `insertCartridge` on an image that is neither 16384 nor 32768 bytes long. Safe: the spec's own fault.
  `reason` is text of unspecified content (U8, log entry 4). -/
  | invalidRomSize (reason : String) (actualSize : Nat)
  /-- R112: raised by a byte read below 0x8000. Safe: the spec's own fault. -/
  | invalidAddress (address : Word)
  /-- R113: raised by `tick` on an opcode byte that is not in the table. Safe: the spec's own fault. -/
  | unsupportedOperation (opcode : Byte)
  /-- R114: raised by an effect function given a mode it does not support; dead from `tick` with the fixed table (R73). Safe:
  the spec's own fault. -/
  | unsupportedAddressingMode (mnemonic : Mnemonic) (mode : Mode)
  /-- R115: raised by `powerOn` with no cartridge. Safe: the spec's own fault. -/
  | noRomInserted
  /-- R116: raised by `tick` while `off`. Safe: the spec's own fault. -/
  | notPowerOn
deriving DecidableEq, Repr

/-- Why the model, and not the hardware, gives no outcome. -/
inductive Refusal where
  /-- Raised by an arm of `exec` whose instruction has no meaning yet: no arm is left. Safe. -/
  | notModelled (mnemonic : String)
  /-- Raised by a read inside the window of a state that has no bus content. No rule can read it then (R20, D13) and no run
  reaches a `tick` in such a state (R25). Safe: the model stops (log entry 5). -/
  | busAbsent
deriving DecidableEq, Repr

/-- All seven flags 0. -/
def Status.clear : Status :=
  { c := false, z := false, i := false, d := false, b := false, v := false, n := false }

/-- The state at construction of the console (R22): `pc` = 0x0000, flags 0, `Off`, no cartridge, no bus content. The reset
ROUTINE of R142, which needs an image, is `Machine.cpuReset` (log entry 1). -/
def State.reset : State :=
  { pc := 0x0000, p := Status.clear, bus := none, power := .off, cart := none }

end Sys2Proof.Machine
end

