-- ==== Sys2Proof/Machine/Memory.lean ====
section
/-! DEFINITION. Byte sequences as a size and a list of cells in one canonical form (log entry 3). The bus only reads one (R33,
R36); `put` serves whoever makes an image, never an instruction. -/

namespace Sys2Proof.Machine

/-- The canonical form: offsets strictly rising and below the size, and no entry equal to what an unlisted offset reads as. -/
abbrev Memory.wf (m : Memory) : Prop :=
  m.cells.Pairwise (fun x y => x.1 < y.1) ∧ ∀ x ∈ m.cells, x.1 < m.size ∧ x.2 ≠ Config.unlistedByte

/-- The byte at an offset in a list of cells. -/
def lookupCell : List Host.Cell → Nat → Byte
  | [], _ => Config.unlistedByte
  | x :: rest, off => if x.1 = off then x.2 else lookupCell rest off

/-- The byte at an offset of a sequence. -/
def Memory.read (m : Memory) (off : Nat) : Byte := lookupCell m.cells off

/-- A cell before a list of later cells, left out where it would say what an unlisted offset reads as anyway. -/
def consCell (off : Nat) (b : Byte) (rest : List Host.Cell) : List Host.Cell :=
  if b = Config.unlistedByte then rest else (off, b) :: rest

/-- The cells with the byte at one offset replaced, in canonical form. -/
def putCell : List Host.Cell → Nat → Byte → List Host.Cell
  | [], off, b => consCell off b []
  | x :: rest, off, b =>
    if x.1 < off then x :: putCell rest off b
    else if x.1 = off then consCell off b rest
    else consCell off b (x :: rest)

/-- The sequence with the byte at one offset replaced; outside the sequence nothing changes. -/
def Memory.put (m : Memory) (off : Nat) (b : Byte) : Memory :=
  if off < m.size then { m with cells := putCell m.cells off b } else m

/-- The cells of a list of bytes whose first stands at `off`. -/
def cellsFrom (off : Nat) : List Byte → List Host.Cell
  | [] => []
  | b :: rest => consCell off b (cellsFrom (off + 1) rest)

/-- The sequence of the given bytes. -/
def Memory.ofList (bytes : List Byte) : Memory :=
  { size := bytes.length, cells := cellsFrom 0 bytes }

/-- The bytes of a sequence. -/
def Memory.toList (m : Memory) : List Byte := (List.range m.size).map m.read

end Sys2Proof.Machine
end

