-- ==== Sys2Proof/Machine/Ops.lean ====
section
/-! DEFINITION. The shared operations: the outcome of an operation and the raising of a fault (60_exceptions.md R117), the two
state primitives (10_state.md R17, R18), the read primitives of the bus (20_memory.md R32 to R34). There is no write operation
(R36), no trap entry beside `raise` and no return from one (R118, R119). -/

namespace Sys2Proof.Machine

/-- What an operation answers: a value (for a host operation, the next state), one of the six faults, or a refusal. -/
abbrev Result (α : Type) := Host.Outcome α Fault Refusal

/-- `raise F(info)` (R7, R117): the running operation is abandoned and the fault goes to the host. No state changes, because no
state is answered; nothing is saved, no vector is read and nothing is latched (R118). -/
def raise {α : Type} (f : Fault) : Result α := .fault f

/-- Go on with the value of an operation, if it answers one. -/
def andThen {α β : Type} (r : Result α) (f : α → Result β) : Result β :=
  match r with
  | .next a => f a
  | .fault e => .fault e
  | .refused e => .refused e

/-- The state after an operation (R117): the state it answers, or the state before where it answers none. -/
def stateAfter (s : State) (r : Result State) : State :=
  match r with
  | .next t => t
  | .fault _ => s
  | .refused _ => s

/-- `pc <- v`, the document's `move_program_counter` (R18): the address is not checked (R13, D19). -/
def moveProgramCounter (v : Word) (s : State) : State := { s with pc := v }

/-- `pc <- pc0 +16 (1 + nbytes)`: how an instruction that falls through advances (41_dispatch_and_effects.md R84), modulo 65536
(R8, D4). -/
def fallThrough (nbytes : Nat) (s : State) : State :=
  moveProgramCounter (s.pc + BitVec.ofNat 16 (1 + nbytes)) s

/-- The storage offset of an address in the window (R32): `(address - 0x8000) mod rom_size`. The subtraction is on words; it is only
ever made of an address at or above 0x8000, so it does not wrap (R8). -/
def storageOffset (a : Word) (romSize : Nat) : Nat := (a - BitVec.ofNat 16 Config.windowBase).toNat % romSize

/-- `MemRead(a, 1)` (R33): a byte through the bus. The range test comes first and needs no bus content. -/
def readByte (a : Word) (s : State) : Result Byte :=
  if a.toNat < Config.windowBase then raise (.invalidAddress a)
  else
    match s.bus with
    | none => .refused .busAbsent
    | some bus => .next (bus.rom.read (storageOffset a bus.romSize))

/-- `MemRead(a, 2)` (R34): the low byte first, the high byte at `a +16 1` (D5). -/
def readWord (a : Word) (s : State) : Result Word :=
  andThen (readByte a s) fun lo =>
  andThen (readByte (a + 1) s) fun hi =>
  .next (wordOf hi lo)

end Sys2Proof.Machine
end

