-- ==== Sys2Proof/Machine/Flags.lean ====
section
/-! DEFINITION. The flags: setting one (10_state.md R17), clearing all (70_reset_and_hazards.md R142), and the packed view of the
status register (R14, R16). No instruction computes a flag (R8, R15). -/

namespace Sys2Proof.Machine

/-- The bit of a flag. -/
def Status.get (p : Status) : Flag → Bool
  | .carry => p.c
  | .zero => p.z
  | .interruptDisable => p.i
  | .decimal => p.d
  | .brk => p.b
  | .overflow => p.v
  | .negative => p.n

/-- The register with one flag replaced. -/
def Status.set (p : Status) (flag : Flag) (enable : Bool) : Status :=
  match flag with
  | .carry => { p with c := enable }
  | .zero => { p with z := enable }
  | .interruptDisable => { p with i := enable }
  | .decimal => { p with d := enable }
  | .brk => { p with b := enable }
  | .overflow => { p with v := enable }
  | .negative => { p with n := enable }

/-- `P.flag <- enable`, the document's `update_processor_status` (R17). -/
def updateProcessorStatus (flag : Flag) (enable : Bool) (s : State) : State :=
  { s with p := s.p.set flag enable }

/-- The seven `P.f <- 0` of the reset routine (R142). -/
def clearFlags (s : State) : State :=
  updateProcessorStatus .carry false (updateProcessorStatus .zero false
    (updateProcessorStatus .interruptDisable false (updateProcessorStatus .decimal false
      (updateProcessorStatus .brk false (updateProcessorStatus .overflow false
        (updateProcessorStatus .negative false s))))))

/-- The packed 8-bit view of the register (R14: bit 7 down to bit 0 are N, V, unused, B, D, I, Z, C) with the given value of the
bit that has no storage (R16). -/
def Status.pack (unused : Bool) (p : Status) : Byte :=
  BitVec.ofBool p.n ++ BitVec.ofBool p.v ++ BitVec.ofBool unused ++ BitVec.ofBool p.b ++
    BitVec.ofBool p.d ++ BitVec.ofBool p.i ++ BitVec.ofBool p.z ++ BitVec.ofBool p.c

/-- `P_byte` of this hardware (R14, R16), for a host that prints the register; no rule of the machine reads it. -/
def State.pByte (s : State) : Byte := s.p.pack Config.pUnusedBit

end Sys2Proof.Machine
end

