-- ==== Sys2Proof/Machine/Console.lean ====
section
/-! DEFINITION. The console driver's own operations (70_reset_and_hazards.md): construction of the bus, the reset routine,
`insert_cartridge` and `power_on`. There is no power-off, no removal and no separate reset (R146). -/

namespace Sys2Proof.Machine

/-- `new_bus(bytes)` (20_memory.md R37): 16384 or 32768 bytes, else `InvalidRomSize`. The length that counts is that of the bytes;
the image's declared size is not looked at (D12). `reason` is text of the environment's choosing (U8, log entry 4). -/
def newBus (bytes : Memory) (reason : String) : Result MemoryBus :=
  if bytes.size ∈ Config.storageSizes then .next { rom := bytes } else raise (.invalidRomSize reason bytes.size)

/-- The image in the slot and its bus, before the reset routine runs. -/
def putCartridge (bus : MemoryBus) (image : CartridgeImage) (s : State) : State :=
  { s with bus := some bus, cart := some image }

/-- The reset routine (R142): `pc` takes the word at 0xFFFC, unchecked (D19), read through the bus like any other; all flags are
cleared. It runs only inside `insertCartridge`. -/
def cpuReset (s : State) : Result State :=
  andThen (readWord Config.resetVector s) fun v =>
  .next (clearFlags (moveProgramCounter v s))

/-- `insert_cartridge(image)` (R141): valid in either power state, which it does not change. -/
def insertCartridge (image : CartridgeImage) (reason : String) (s : State) : Result State :=
  andThen (newBus image.storageBytes reason) fun bus =>
  cpuReset (putCartridge bus image s)

/-- The power status replaced. -/
def setPower (power : Power) (s : State) : State := { s with power := power }

/-- `power_on` (R143): `Off` to `On` if a cartridge is present; no change when already `On` (R144, D20). -/
def powerOn (s : State) : Result State :=
  match s.power, s.cart with
  | .on, _ => .next s
  | .off, none => raise .noRomInserted
  | .off, some _ => .next (setPower .on s)

end Sys2Proof.Machine
end

