-- ==== Sys2Proof/Machine/Loader.lean ====
section
/-! DEFINITION. Placing an instruction where the next `tick` fetches it (log entries 1 and 9). No part of the machine: it stands
for the host that makes an image, inserts it and powers the console on. -/

namespace Sys2Proof.Machine

/-- Where an instruction is placed when `pc` is no place for one: the bottom of the window. -/
def loadAddress : Word := 0x8000

/-- A 32 KiB image of zeros whose reset vector is `loadAddress`, for a state with no bus content. -/
def blankStorage : Memory := { size := 32768, cells := [(0x7FFD, 0x80)] }

/-- Whether three bytes from `pc` on lie inside the window. -/
def holdsInstruction (pc : Word) : Bool := decide (0x8000 ≤ pc.toNat ∧ pc.toNat ≤ 0xFFFD)

/-- The storage with bytes placed at ascending addresses from `a` on. -/
def placeBytes (m : Memory) (a : Word) : List Byte → Memory
  | [] => m
  | b :: rest => placeBytes (m.put (storageOffset a m.size) b) (a + 1) rest

/-- The address the instruction is placed at: `pc`, unless it is no place for three bytes. -/
def loadPc (s : State) : Word := if holdsInstruction s.pc then s.pc else loadAddress

/-- The storage the instruction is placed in: that of the bus, or a blank image. -/
def loadBase (s : State) : Memory :=
  match s.bus with
  | some bus => bus.rom
  | none => blankStorage

/-- The image whose bytes are `rom`: the one in the slot with its bytes replaced, or a new one. -/
def loadImage (rom : Memory) (s : State) : CartridgeImage :=
  match s.cart with
  | some image => { image with storageBytes := rom }
  | none => { storageSize := rom.size, storageBytes := rom, trainerPresent := false }

/-- The state powered on, with the bytes in the storage (of the bus and of the cartridge record alike) at the address that `pc`
then holds; flags, and a `pc` with room for three bytes, are kept. -/
def loadProgramBytes (bytes : List Byte) (s : State) : State :=
  let rom := placeBytes (loadBase s) (loadPc s) bytes
  setPower .on (moveProgramCounter (loadPc s) (putCartridge { rom := rom } (loadImage rom s) s))

end Sys2Proof.Machine
end

