-- ==== Sys2Proof/Machine/ControlTransfer.lean ====
section
/-! DEFINITION. Control transfer: `JMP` absolute alone (43_control_transfer.md R100, R101). -/

namespace Sys2Proof.Machine

/-- `JMP` (R100) once its operand is resolved: the target replaces `pc`, unchecked (D19). The reading of the operand, which can
fault, is `resolve .absolute` in `runEffect` (log entry 12). -/
def execJmp (target : Word) (s : State) : Result State :=
  .next (moveProgramCounter target s)

end Sys2Proof.Machine
end

