-- ==== Sys2Proof/Machine/FlagInstructions.lean ====
section
/-! DEFINITION. The flag instructions: `SEI` alone (42_flag_instructions.md R95, R96). -/

namespace Sys2Proof.Machine

/-- `SEI` (R95): `P.I <- 1`; `pc <- pc0 +16 1`, for the resolver reports no operand byte. No fault of its own, no privilege (R124). -/
def execSei (s : State) : Result State :=
  .next (fallThrough 0 (updateProcessorStatus .interruptDisable true s))

end Sys2Proof.Machine
end

