-- ==== Sys2Proof/Machine/Dispatch.lean ====
section
/-! DEFINITION. One arm per instruction: its state changes, once decoded and its operand resolved. -/

namespace Sys2Proof.Machine

def exec (i : Instr) (s : State) : Host.Outcome State Fault Refusal :=
  match i with
  | .sei => Sys2Proof.Machine.execSei s
  | .jmp target => Sys2Proof.Machine.execJmp target s

end Sys2Proof.Machine
end

