-- ==== Sys2Proof/Machine/Operands.lean ====
section
/-! DEFINITION. The addressing-mode resolver with all seven modes (40_addressing_resolver.md R65 to R75), the operand an effect
function consumes (R67, R72, R73), and the latent target function of a relative branch (43_control_transfer.md R102). -/

namespace Sys2Proof.Machine

/-- `zext_16` (R6). -/
def zext16 (b : Byte) : Word := b.setWidth 16

/-- `sext_16` (R6). -/
def sext16 (b : Byte) : Word := b.signExtend 16

/-- `Resolve(mode, pc)` (R65): the operand and the number of operand bytes, or the fault of a failed read. It answers no state,
so it changes none. `pc` is the address of the opcode byte; the operand bytes stand at `pc +16 1` and `pc +16 2` (R75). -/
def resolve (mode : Mode) (pc : Word) (s : State) : Result (Operand × Nat) :=
  match mode with
  | .implied => .next (.noOperand, 0)
  | .accumulator => .next (.accOperand, 0)
  | .immediate => andThen (readByte (pc + 1) s) fun v => .next (.value8 v, 1)
  | .zeroPage =>
    andThen (readByte (pc + 1) s) fun b =>
    andThen (readByte (zext16 b) s) fun v => .next (.value8 v, 1)
  | .relative => andThen (readByte (pc + 1) s) fun b => .next (.disp (sext16 b), 1)
  | .absolute => andThen (readWord (pc + 1) s) fun w => .next (.addr16 w, 2)
  | .absoluteX => andThen (readWord (pc + 1) s) fun w => .next (.indexedBase w, 2)

/-- The operand form an effect function consumes, and the instruction it then carries out (R95, R100); no other form has a
consumer (R67, R72). -/
def consume : Mnemonic → Operand → Option Instr
  | .sei, .noOperand => some .sei
  | .jmp, .addr16 target => some (.jmp target)
  | _, _ => none

/-- `RelTarget(pc0, d)` (R102, D8): latent, no instruction of this hardware calls it. -/
def relTarget (pc0 d : Word) : Word := pc0 + 2 + d

end Sys2Proof.Machine
end

