-- ==== Sys2Proof/Machine/Tick.lean ====
section
/-! DEFINITION. The step of the machine: one `tick` from fetch to commit (41_dispatch_and_effects.md R82), and the effect
functions with their mode guard (R83; 40_addressing_resolver.md R73). -/

namespace Sys2Proof.Machine

/-- An effect function run with a given addressing mode (R82 step 4, R83): the mode guard first (4a, D7), then the resolver at the
address of the opcode byte (4b), then the instruction's state changes, `pc` among them (4c). An operand form that the effect has no
use for is the same fault as the guard's (R67, R72); behind the guard no such form arises. -/
def runEffect (m : Mnemonic) (mode : Mode) (s : State) : Result State :=
  if m.accepts mode then
    andThen (resolve mode s.pc s) fun r =>
      match consume m r.1 with
      | some i => exec i s
      | none => raise (.unsupportedAddressingMode m mode)
  else raise (.unsupportedAddressingMode m mode)

/-- `tick` over a given dispatch table (R82, R88): the power test, the opcode fetch, the lookup, the effect. The dispatcher itself
never touches `pc` (R84). -/
def tickWith (table : List TableEntry) (s : State) : Result State :=
  match s.power with
  | .off => raise .notPowerOn
  | .on =>
    andThen (readByte s.pc s) fun b0 =>
      match lookupIn table b0 with
      | none => raise (.unsupportedOperation b0)
      | some e => runEffect e.mnemonic e.mode s

/-- `tick` of this hardware: the two-entry table of 30_encoding.md R54. -/
def tick (s : State) : Result State := tickWith instructionTable s

end Sys2Proof.Machine
end

