-- ==== Sys2Proof/Machine/Step.lean ====
section
/-! DEFINITION. The step: one `tick` (41_dispatch_and_effects.md R82). The host's other two operations are in Machine/Operate.lean. -/

namespace Sys2Proof.Machine

/-- One step of the machine is one `tick` (R5, R82; log entry 2). -/
def step (s : State) : Host.Outcome State Fault Refusal := tick s

/-- `s` with the instruction whose bits are `w` placed where the next step fetches (log entries 1 and 9). -/
def State.withFetchWord (s : State) (nbits w : Nat) : State := loadProgramBytes (tableBytes nbits w) s

end Sys2Proof.Machine
end

