-- ==== Sys2Proof/Machine/Assembler.lean ====
section
/-! DEFINITION. The assembler notation of 30_encoding.md R59 (the spec's decision D11): the lines of a program, their text, and the bytes
they place. Presentation only: the machine does not use it (log entry 14). -/

namespace Sys2Proof.Machine

/-- What a `JMP` line names: `$hhll`, or a label. DESIGN CHOICE (log entry 14): R59 gives the lines `JMP $hhll`, `.word $hhll` and
`.org $hhll` and says that a label stands for an address, not where its name may be written. The model lets a `JMP` line name a label, one
that stands before or after that line, and no other line: `.word` and `.org` take a number. -/
inductive AsmTarget where
  | address (w : Word)
  | label (name : String)
deriving DecidableEq, Repr

/-- One line of a program (R59). A comment and a blank line place nothing and have no constructor. DESIGN CHOICE (log entry 14): a label's
name is any string (R59 does not say what a name is), and only a `JMP` line may name one (`AsmTarget`). -/
inductive AsmLine where
  | sei
  | jmp (target : AsmTarget)
  /-- `name:` stands for the address of the next byte -/
  | label (name : String)
  /-- `.byte $xx` -/
  | byte (b : Byte)
  /-- `.word $hhll` -/
  | word (w : Word)
  /-- `.org $hhll` sets the address of the next byte -/
  | org (a : Word)
deriving DecidableEq, Repr

/-- The line of an instruction. -/
def AsmLine.ofInstr : Instr → AsmLine
  | .sei => .sei
  | .jmp target => .jmp (.address target)

/-- Hexadecimal digits of a number, the given count of them. -/
def hexDigits : Nat → Nat → String
  | 0, _ => ""
  | count + 1, v => hexDigits count (v / 16) ++ String.singleton ("0123456789ABCDEF".toList.getD (v % 16) '0')

/-- The text of a line. DESIGN CHOICE (log entry 14): a hexadecimal digit above 9 is written as a capital, and a label is used by its name
without the `:`; R59 says neither. -/
def AsmLine.text : AsmLine → String
  | .sei => "SEI"
  | .jmp (.address w) => "JMP $" ++ hexDigits 4 w.toNat
  | .jmp (.label name) => "JMP " ++ name
  | .label name => name ++ ":"
  | .byte b => ".byte $" ++ hexDigits 2 b.toNat
  | .word w => ".word $" ++ hexDigits 4 w.toNat
  | .org a => ".org $" ++ hexDigits 4 a.toNat

/-- The address of the next byte after a line that stands at `pos`. -/
def AsmLine.next (pos : Word) : AsmLine → Word
  | .sei => pos + 1
  | .jmp _ => pos + 3
  | .label _ => pos
  | .byte _ => pos + 1
  | .word _ => pos + 2
  | .org a => a

/-- The labels of a program and what they stand for: the address of the next byte (R59). DESIGN CHOICE (log entry 14): a label on a line
directly before an `.org` stands for the address BEFORE that `.org` takes effect, a point R59 leaves open. -/
def asmLabels (pos : Word) : List AsmLine → List (String × Word)
  | [] => []
  | .label name :: rest => (name, pos) :: asmLabels pos rest
  | line :: rest => asmLabels (line.next pos) rest

/-- The address a target names. -/
def AsmTarget.resolve (labels : List (String × Word)) : AsmTarget → Option Word
  | .address w => some w
  | .label name => (labels.find? (fun x => x.1 == name)).map Prod.snd

/-- The bytes a line places; a `.word` places its low byte first. -/
def AsmLine.bytes (labels : List (String × Word)) : AsmLine → Option (List Byte)
  | .sei => some (encode .sei)
  | .jmp target => (target.resolve labels).map (fun w => encode (.jmp w))
  | .label _ => some []
  | .byte b => some [b]
  | .word w => some [lowByte w, highByte w]
  | .org _ => some []

/-- Bytes with the ascending addresses they stand at. -/
def addressed (pos : Word) : List Byte → List (Word × Byte)
  | [] => []
  | b :: rest => (pos, b) :: addressed (pos + 1) rest

/-- The bytes of the lines, each at its address. -/
def asmPlace (labels : List (String × Word)) (pos : Word) : List AsmLine → Option (List (Word × Byte))
  | [] => some []
  | line :: rest =>
    match line.bytes labels, asmPlace labels (line.next pos) rest with
    | some bytes, some placed => some (addressed pos bytes ++ placed)
    | _, _ => none

/-- The bytes of a program, in the order of its lines, whose first line stands at `start`. DESIGN CHOICE (log entry 14): the address before any
`.org` is an argument, there is no program where a label is missing or stands twice, and bytes that two lines place at one address are
listed both. -/
def assemble (start : Word) (lines : List AsmLine) : Option (List (Word × Byte)) :=
  let labels := asmLabels start lines
  if (labels.map Prod.fst).Nodup then asmPlace labels start lines else none

end Sys2Proof.Machine
end

