-- ==== Sys2Proof/Machine/Operate.lean ====
section
/-! DEFINITION. The host interface (70_reset_and_hazards.md R140, R155): the three operations, and a run as a sequence of them
that ends at the first faulting `tick` (R154). -/

namespace Sys2Proof.Machine

/-- The three host operations and no others (R140). With an insertion goes the text the environment would put into
`InvalidRomSize` (U8, log entry 4). -/
inductive HostOp where
  | insertCartridge (image : CartridgeImage) (reason : String)
  | powerOn
  | tick
deriving DecidableEq, Repr

/-- Whether an operation is a `tick`: only a faulting tick ends a run (R119, R154). -/
def HostOp.isTick : HostOp → Bool
  | .insertCartridge _ _ => false
  | .powerOn => false
  | .tick => true

/-- One host operation, atomic (R85, R152). -/
def operate (op : HostOp) (s : State) : Result State :=
  match op with
  | .insertCartridge image reason => insertCartridge image reason s
  | .powerOn => powerOn s
  | .tick => step s

/-- What the host may read of the core between operations, and may not write: `pc`, the flags and `power` (R155, D1). -/
structure Observation where
  pc    : Word
  p     : Status
  power : Power
deriving DecidableEq, Repr

/-- The observation of a state. -/
def State.observe (s : State) : Observation := { pc := s.pc, p := s.p, power := s.power }

/-- That many ticks in a row, up to the first that answers no state. -/
def ticks : Nat → State → Result State
  | 0, s => .next s
  | n + 1, s => andThen (step s) (ticks n)

/-- How far a run has come. -/
inductive RunResult where
  /-- no `tick` has faulted so far (R154: such a run has no end) -/
  | running (s : State)
  /-- the first faulting `tick`: the state before it and its fault (R154, D15) -/
  | ended (s : State) (f : Fault)
  /-- the model gives no outcome (log entry 5) -/
  | stuck (s : State) (r : Refusal)
deriving DecidableEq, Repr

/-- A run (R154): the host's operations in order, up to the first faulting `tick`. A fault of `insert_cartridge` or `power_on` changes
nothing and does not end the run (R117, R119). -/
def run : List HostOp → State → RunResult
  | [], s => .running s
  | op :: ops, s =>
    match operate op s with
    | .next t => run ops t
    | .fault f => if op.isTick then .ended s f else run ops s
    | .refused r => .stuck s r

end Sys2Proof.Machine
end

