-- ==== Sys2Proof/Safety.lean ====
section
/-! DEFINITION. The terms claims use: the invariants of 10_state.md R25, the states a host can bring the core to, and a run that
never faults (70_reset_and_hazards.md R154). -/

namespace Sys2Proof.Machine

/-- R25 (1): `On` only with a cartridge. -/
abbrev State.OnHasCartridge (s : State) : Prop := s.power = .on → s.cart ≠ none

/-- R25 (2): the slot is filled exactly when the bus has content, and then `rom` is the cartridge's bytes. -/
abbrev State.BusMatchesCartridge (s : State) : Prop :=
  s.bus.map MemoryBus.rom = s.cart.map CartridgeImage.storageBytes

/-- R25 (2), R20: `rom_size` is legal; and the storage keeps its canonical form (the model's own clause, log entry 3). -/
abbrev State.StorageLegal (s : State) : Prop :=
  ∀ bus ∈ s.bus, bus.romSize ∈ Config.storageSizes ∧ bus.rom.wf

/-- R25 (5): no flag but `I` is ever set. -/
abbrev State.OnlyInterruptDisable (s : State) : Prop :=
  s.p = { Status.clear with i := s.p.i }

/-- The invariant of the core: R25 (1), (2), (5) and the canonical form of the storage. NOT in it: that `pc` lies in the window
(R13, R25, C2). -/
abbrev State.Inv (s : State) : Prop :=
  s.OnHasCartridge ∧ s.BusMatchesCartridge ∧ s.StorageLegal ∧ s.OnlyInterruptDisable

/-- An operation whose image, if it has one, is a byte sequence written in canonical form (log entry 3). Nothing else is asked:
any length, any declared size, any bytes. -/
abbrev HostOp.wf : HostOp → Prop
  | .insertCartridge image _ => image.storageBytes.wf
  | .powerOn => True
  | .tick => True

/-- The states a host can bring the core to from construction (R140, R154): a failed operation changes nothing. -/
inductive Reachable : State → Prop
  | construction : Reachable State.reset
  | operation {s : State} (op : HostOp) (hs : Reachable s) (hop : op.wf) : Reachable (stateAfter s (operate op s))

/-- Every tick from here on succeeds, for ever: a legal endless run (R87, R154). -/
def NeverFaults (s : State) : Prop :=
  ∀ n : Nat, ∃ t : State, ticks n s = .next t

end Sys2Proof.Machine
end

