-- ==== Sys2Proof/Certificates/Slice0/Obligations.lean ====
section
/-! DEFINITION. The statements for the provers. Each docstring names the rule of `spec/` it formalises; a clause that rests on a
decision the spec marks as its own (D<n>) or on a choice of the model (log entry <n>) is named as such. -/

open Sys2Proof Sys2Proof.Machine

/-! ### Encoding -/

/-- Decoding the encoding of any instruction, with any bytes after it, gives the instruction back and leaves those bytes (30_encoding.md R50
to R54). -/
def Obligations.DecodeEncodeAgree : Prop :=
  ∀ (i : Instr) (rest : List Byte), decode (encode i ++ rest) = .ok (i, rest)

/-- Whatever decodes is the encoding of what it decodes to: no two byte strings stand for one instruction (R52, R54). -/
def Obligations.EncodeDecodeAgree : Prop :=
  ∀ (bytes : List Byte) (i : Instr) (rest : List Byte), decode bytes = .ok (i, rest) → bytes = encode i ++ rest

/-- R54, R55: the table has the two entries of the spec and no other, and is well formed (keys unique, each mode wired). That the table has
exactly two entries is the spec's decision D17. -/
def Obligations.DispatchTableHasTwoEntries : Prop :=
  (∀ (b0 : Byte) (e : TableEntry), lookup b0 = some e ↔
    (b0 = 0x78 ∧ e = { opcode := 0x78, mnemonic := .sei, mode := .implied }) ∨
    (b0 = 0x4C ∧ e = { opcode := 0x4C, mnemonic := .jmp, mode := .absolute })) ∧
  tableWellFormed instructionTable

/-- R56: every opcode byte but 0x78 and 0x4C is illegal, in the decoder and in the tick that fetches it, which changes no state; and the
operand bytes of a legal instruction are unconstrained. -/
def Obligations.IllegalOpcodesAreRejected : Prop :=
  (∀ (b0 : Byte) (rest : List Byte),
    decode (b0 :: rest) = .error (.unsupportedOperation b0) ↔ b0 ≠ 0x78 ∧ b0 ≠ 0x4C) ∧
  (∀ (s : State) (b0 : Byte), s.power = .on → readByte s.pc s = .next b0 → b0 ≠ 0x78 → b0 ≠ 0x4C →
    step s = .fault (.unsupportedOperation b0) ∧ stateAfter s (step s) = s) ∧
  (∀ (lo hi : Byte) (rest : List Byte), ∃ target, decode (0x4C :: lo :: hi :: rest) = .ok (.jmp target, rest))

/-- Words written out from the encodings of R54, S5, S6 and S7: 78 is SEI, 4C 00 90 is a jump to 0x9000, FF is no instruction. -/
def Obligations.WrittenOutBytesDecode : Prop :=
  decode [0x78] = .ok (.sei, []) ∧ decode [0x4C, 0x00, 0x90] = .ok (.jmp 0x9000, []) ∧
  decode [0x4C, 0x90, 0x00] = .ok (.jmp 0x0090, []) ∧ decode [0xFF] = .error (.unsupportedOperation 0xFF)

/-- The assembler notation (30_encoding.md section 6; the spec's decision D11): the lines of a list of instructions, labels apart, place
exactly their encodings, one after the other, at addresses that wrap (the spec's D4). The first address is an argument, which is the model's
choice (log entry 14). The second clause, that a `JMP` line which names the label on the line before it jumps to itself, is the model's
choice too (DESIGN CHOICE, log entry 14): the spec says that a label stands for the address of the next byte, not where its name may be
used. -/
def Obligations.AssemblyPlacesEncodings : Prop :=
  (∀ (start : Word) (program : List Instr),
    assemble start (program.map AsmLine.ofInstr) = some (addressed start (program.flatMap encode))) ∧
  (∀ (start : Word) (name : String),
    assemble start [.label name, .jmp (.label name)] = some (addressed start (encode (.jmp start))))

/-! ### State and its two primitives -/

/-- R22: the state at construction. -/
def Obligations.ConstructionStateIsAsGiven : Prop :=
  State.reset.pc = 0x0000 ∧ (∀ flag, State.reset.p.get flag = false) ∧ State.reset.power = .off ∧
  State.reset.cart = none ∧ State.reset.bus = none

/-- The invariant of the core holds at construction (10_state.md section 9). The invariant's clause on the storage's canonical form is the
model's own (log entry 3); it says nothing here, since there is no bus content (10_state.md R22). -/
def Obligations.ConstructionMeetsInvariant : Prop := State.reset.Inv

/-- R17: `P.f <- b` makes that one flag equal to `b`; the other six flags and `pc` are unchanged, and so is everything else; setting a flag
to the value it has changes nothing. -/
def Obligations.UpdateProcessorStatusChangesOneFlag : Prop :=
  ∀ (s : State) (flag : Flag) (enable : Bool),
    (updateProcessorStatus flag enable s).p.get flag = enable ∧
    (∀ other, other ≠ flag → (updateProcessorStatus flag enable s).p.get other = s.p.get other) ∧
    (updateProcessorStatus flag enable s).pc = s.pc ∧ (updateProcessorStatus flag enable s).bus = s.bus ∧
    (updateProcessorStatus flag enable s).power = s.power ∧ (updateProcessorStatus flag enable s).cart = s.cart ∧
    (s.p.get flag = enable → updateProcessorStatus flag enable s = s)

/-- R18: `pc <- v` replaces `pc` by `v`, unchecked, and leaves the flags and everything else; the effect functions change the state by these
two primitives alone, and so does the reset routine (one `pc <- v`, seven `P.f <- 0`). -/
def Obligations.PrimitivesAreTheOnlyChanges : Prop :=
  (∀ (v : Word) (s : State), (moveProgramCounter v s).pc = v ∧ (moveProgramCounter v s).p = s.p ∧
    (moveProgramCounter v s).bus = s.bus ∧ (moveProgramCounter v s).power = s.power ∧
    (moveProgramCounter v s).cart = s.cart) ∧
  (∀ (m : Mnemonic) (mode : Mode) (s t : State), runEffect m mode s = .next t →
    ∃ v, t = moveProgramCounter v s ∨ ∃ flag enable, t = moveProgramCounter v (updateProcessorStatus flag enable s)) ∧
  (∀ s t : State, cpuReset s = .next t → ∃ v, t = clearFlags (moveProgramCounter v s)) ∧
  (∀ s : State, clearFlags s = [Flag.carry, .zero, .interruptDisable, .decimal, .brk, .overflow, .negative].foldr
    (fun flag x => updateProcessorStatus flag false x) s)

/-- The packed view of `P` (10_state.md section 3; the positions are the spec's decision D2, the constant bit its D3): each flag stands at
its bit, bit 5 is the parameter, and two registers with one packed view are equal. That the bit is `Config.pUnusedBit` is log entry 6. -/
def Obligations.PackedStatusHoldsEachFlag : Prop :=
  (∀ (unused : Bool) (p : Status),
    (p.pack unused).getLsbD 7 = p.n ∧ (p.pack unused).getLsbD 6 = p.v ∧ (p.pack unused).getLsbD 5 = unused ∧
    (p.pack unused).getLsbD 4 = p.b ∧ (p.pack unused).getLsbD 3 = p.d ∧ (p.pack unused).getLsbD 2 = p.i ∧
    (p.pack unused).getLsbD 1 = p.z ∧ (p.pack unused).getLsbD 0 = p.c) ∧
  (∀ s : State, s.pByte.getLsbD 5 = Config.pUnusedBit) ∧
  (∀ s t : State, s.pByte = t.pByte → s.p = t.p)

/-! ### The bus -/

/-- R33: a byte read below 0x8000 raises `InvalidAddress` of its address, and a byte read at 0x8000 or above answers `storage_bytes[(a -
0x8000) mod storage_size]`, for every legal sequence of bytes. The bytes stand in the state in the model's representation, `Memory.ofList`,
which is exact (log entry 3). -/
def Obligations.ReadByteAnswersStorageByte : Prop :=
  ∀ (bytes : List Byte) (s : State) (a : Word),
    bytes.length ∈ Config.storageSizes → s.bus = some { rom := Memory.ofList bytes } →
    (a.toNat < 0x8000 → readByte a s = .fault (.invalidAddress a)) ∧
    (0x8000 ≤ a.toNat → ∃ b, bytes[(a.toNat - 0x8000) % bytes.length]? = some b ∧ readByte a s = .next b)

/-- R32: the storage offsets of both image sizes over both halves of the window, the offsets of the reset vector's bytes, and that the byte
answered is the one at the offset; so a 16 KiB image reads the same at `a` and at `a + 0x4000`. -/
def Obligations.MirroringFollowsImageSize : Prop :=
  ∀ (s : State) (bus : MemoryBus) (a : Word), s.bus = some bus → 0x8000 ≤ a.toNat →
    readByte a s = .next (bus.rom.read (storageOffset a bus.romSize)) ∧
    (bus.romSize = 32768 → storageOffset a bus.romSize = a.toNat - 0x8000) ∧
    (bus.romSize = 16384 → a.toNat ≤ 0xBFFF →
      storageOffset a bus.romSize = a.toNat - 0x8000 ∧ readByte (a + 0x4000) s = readByte a s) ∧
    (bus.romSize = 16384 → 0xC000 ≤ a.toNat → storageOffset a bus.romSize = a.toNat - 0xC000) ∧
    (bus.romSize = 16384 → storageOffset 0xFFFC bus.romSize = 0x3FFC ∧ storageOffset 0xFFFD bus.romSize = 0x3FFD) ∧
    (bus.romSize = 32768 → storageOffset 0xFFFC bus.romSize = 0x7FFC ∧ storageOffset 0xFFFD bus.romSize = 0x7FFD)

/-- The little-endian word read (20_memory.md section 2): it succeeds exactly for 0x8000 to 0xFFFE and then is `lo + 256 * hi` of the two
byte reads. Which address a failing read names, and the wrap at 0xFFFF, are the spec's decision D5. -/
def Obligations.ReadWordIsLittleEndian : Prop :=
  ∀ (s : State) (a : Word), s.bus ≠ none →
    (0x8000 ≤ a.toNat → a.toNat ≤ 0xFFFE → ∃ lo hi w, readByte a s = .next lo ∧ readByte (a + 1) s = .next hi ∧
      readWord a s = .next w ∧ w.toNat = lo.toNat + 256 * hi.toNat) ∧
    (a.toNat < 0x8000 → readWord a s = .fault (.invalidAddress a)) ∧
    (a = 0xFFFF → readWord a s = .fault (.invalidAddress 0x0000))

/-- The model's own representation of byte sequences is exact (log entry 3): every list of bytes is some canonical `Memory`, and every
canonical `Memory` is the one of its bytes. So reading 0 at an unlisted offset assumes nothing of the hardware. -/
def Obligations.MemoryRepresentsByteSequences : Prop :=
  (∀ bytes : List Byte, (Memory.ofList bytes).wf ∧ (Memory.ofList bytes).toList = bytes) ∧
  (∀ m : Memory, m.wf → Memory.ofList m.toList = m)

/-! ### The resolver -/

/-- What the resolver answers in the four modes that need no absent state, from the reads of the operand bytes, and their faults when the
opcode byte is in the window (40_addressing_resolver.md section 2). That an operand address wraps past 0xFFFF is the spec's decision D4;
that the low byte is read first and the fault names the byte that failed is its D5 (log entry 11). -/
def Obligations.ResolverReadsOperandBytes : Prop :=
  ∀ (s : State) (pc : Word),
    resolve .implied pc s = .next (.noOperand, 0) ∧
    (∀ v, readByte (pc + 1) s = .next v → resolve .immediate pc s = .next (.value8 v, 1)) ∧
    (∀ f, readByte (pc + 1) s = .fault f → resolve .immediate pc s = .fault f) ∧
    (∀ b, readByte (pc + 1) s = .next b →
      ∃ d, resolve .relative pc s = .next (.disp d, 1) ∧ d.toInt = b.toInt) ∧
    (∀ f, readByte (pc + 1) s = .fault f → resolve .relative pc s = .fault f) ∧
    (∀ lo hi, readByte (pc + 1) s = .next lo → readByte (pc + 2) s = .next hi →
      ∃ w, resolve .absolute pc s = .next (.addr16 w, 2) ∧ w.toNat = lo.toNat + 256 * hi.toNat) ∧
    (∀ f, readByte (pc + 1) s = .fault f → resolve .absolute pc s = .fault f) ∧
    (∀ lo f, readByte (pc + 1) s = .next lo → readByte (pc + 2) s = .fault f → resolve .absolute pc s = .fault f) ∧
    (0x8000 ≤ pc.toNat → s.bus ≠ none → ∀ f,
      (resolve .immediate pc s = .fault f ↔ pc = 0xFFFF ∧ f = .invalidAddress 0x0000) ∧
      (resolve .relative pc s = .fault f ↔ pc = 0xFFFF ∧ f = .invalidAddress 0x0000) ∧
      (resolve .absolute pc s = .fault f ↔ (pc = 0xFFFE ∨ pc = 0xFFFF) ∧ f = .invalidAddress 0x0000))

/-- What the resolver answers has the operand form of its mode and reports its number of operand bytes (the tables of 30_encoding.md section
1 and 40_addressing_resolver.md section 1), whatever the state; so the number it reports is the one `SEI` and a decoder advance by. The
operand forms' names are the spec's own; that the set of modes is these seven, and what Accumulator and AbsoluteX yield, is its decision D9
(log entry 11). -/
def Obligations.ResolverReportsFormAndCount : Prop :=
  ∀ (mode : Mode) (pc : Word) (s : State) (operand : Operand) (nbytes : Nat),
    resolve mode pc s = .next (operand, nbytes) →
    nbytes = mode.operandBytes ∧
    (operand = .noOperand ↔ mode = .implied) ∧ (operand = .accOperand ↔ mode = .accumulator) ∧
    ((∃ v, operand = .value8 v) ↔ mode = .immediate ∨ mode = .zeroPage) ∧
    ((∃ d, operand = .disp d) ↔ mode = .relative) ∧ ((∃ w, operand = .addr16 w) ↔ mode = .absolute) ∧
    ((∃ w, operand = .indexedBase w) ↔ mode = .absoluteX)

/-- The three latent modes that need absent state (40_addressing_resolver.md section 2; what becomes of them is the spec's decision D9):
Accumulator yields an operand without a value; ZeroPage, once its operand byte is read, always fails at the address below 0x0100 that the
byte names; AbsoluteX, once its operand bytes are read, stops at its base; and no effect function has a use for any of them. That an effect
function under one of the three raises `UnsupportedAddressingMode` in every state, and not the `InvalidAddress` of the resolver, is the mode
guard (40_addressing_resolver.md section 3, R73); that the guard comes before any operand read is the spec's decision D7 (log entry 11).
What the resolver does where an operand byte cannot be read is `LatentModesFaultOnUnreadableOperands`. -/
def Obligations.LatentModesInventNoState : Prop :=
  ∀ (s : State) (pc : Word),
    resolve .accumulator pc s = .next (.accOperand, 0) ∧
    (∀ b, readByte (pc + 1) s = .next b →
      ∃ ea : Word, ea.toNat = b.toNat ∧ resolve .zeroPage pc s = .fault (.invalidAddress ea)) ∧
    (∀ w, readWord (pc + 1) s = .next w → resolve .absoluteX pc s = .next (.indexedBase w, 2)) ∧
    (∀ m, runEffect m .accumulator s = .fault (.unsupportedAddressingMode m .accumulator) ∧
      runEffect m .zeroPage s = .fault (.unsupportedAddressingMode m .zeroPage) ∧
      runEffect m .absoluteX s = .fault (.unsupportedAddressingMode m .absoluteX))

/-- The operand bytes of the two latent modes with operands and absent state (40_addressing_resolver.md sections 1 and 2: the faults of
ZeroPage and AbsoluteX): where a byte cannot be read, that read's fault is the resolver's; with the opcode in the window this is
`InvalidAddress(0x0000)`, for ZeroPage at 0xFFFF, for AbsoluteX at 0xFFFE and 0xFFFF and nowhere else. That ZeroPage reads at its address
through the one bus and AbsoluteX stops at its base is the spec's decision D9, the wrap of operand addresses its D4, the order of the byte
reads and the address a failing one names its D5 (log entry 11). -/
def Obligations.LatentModesFaultOnUnreadableOperands : Prop :=
  ∀ (s : State) (pc : Word),
    (∀ f, readByte (pc + 1) s = .fault f → resolve .zeroPage pc s = .fault f ∧ resolve .absoluteX pc s = .fault f) ∧
    (∀ lo f, readByte (pc + 1) s = .next lo → readByte (pc + 2) s = .fault f → resolve .absoluteX pc s = .fault f) ∧
    (0x8000 ≤ pc.toNat → s.bus ≠ none →
      (pc = 0xFFFF → resolve .zeroPage pc s = .fault (.invalidAddress 0x0000)) ∧
      (∀ f, resolve .absoluteX pc s = .fault f ↔ (pc = 0xFFFE ∨ pc = 0xFFFF) ∧ f = .invalidAddress 0x0000))

/-- The target of a relative branch (43_control_transfer.md R102; the base `pc0 + 2` is the spec's decision D8): the address after the
two-byte branch plus the signed displacement, modulo 65536. Latent: no instruction uses it. The wrap modulo 65536 is the spec's decision D4.
-/
def Obligations.RelativeTargetAddsSignedByte : Prop :=
  ∀ (pc0 : Word) (b : Byte),
    ((relTarget pc0 (sext16 b)).toNat : Int) = ((pc0.toNat : Int) + 2 + b.toInt) % 65536

/-- R73: an effect function run under a mode that is not wired to it raises `UnsupportedAddressingMode` with its mnemonic and that mode, and
only then. That the guard comes before any operand read (the fault is the guard's even where the operand bytes cannot be read) is the spec's
decision D7. -/
def Obligations.UnwiredModesAreGuarded : Prop :=
  ∀ (m : Mnemonic) (mode : Mode) (s : State),
    (runEffect m mode s = .fault (.unsupportedAddressingMode m mode) ↔
      ¬ ((m = .sei ∧ mode = .implied) ∨ (m = .jmp ∧ mode = .absolute)))

/-- With any well-formed dispatch table, the fixed one of this hardware among them, no tick raises `UnsupportedAddressingMode`
(40_addressing_resolver.md section 3; 60_exceptions.md section 1). That the step may take the table as an argument is
41_dispatch_and_effects.md section 3 (R88). -/
def Obligations.WellFormedTableNeverFaultsOnMode : Prop :=
  (∀ (table : List TableEntry) (s : State) (m : Mnemonic) (mode : Mode), tableWellFormed table →
    tickWith table s ≠ .fault (.unsupportedAddressingMode m mode)) ∧
  (∀ (s : State) (m : Mnemonic) (mode : Mode), step s ≠ .fault (.unsupportedAddressingMode m mode))

/-! ### The instructions -/

/-- `SEI` completes in every state: `I` becomes 1, `pc` advances by one modulo 65536, nothing else changes (42_flag_instructions.md; the
wrap at 0xFFFF is the spec's decision D4). `exec` stands for the instruction's own effect; the power test is the tick's (log entry 12). -/
def Obligations.SeiCompletes : Prop :=
  ∀ s : State, exec .sei s = .next { s with pc := s.pc + 1, p := { s.p with i := true } }

/-- `JMP` completes in every state and for every target, in the window or not: the target replaces `pc`, nothing else changes
(43_control_transfer.md; that the target is not checked is the spec's decision D19). `exec` starts from the resolved operand, and the power
test is the tick's (log entry 12). -/
def Obligations.JmpCompletes : Prop :=
  ∀ (target : Word) (s : State), exec (.jmp target) s = .next { s with pc := target }

/-- `SEI` as a tick and as an effect function (42_flag_instructions.md): `SEI` fetched by a tick answers the state with `I` = 1 and `pc +16
1`; so does its effect function under Implied, in every state, also where no byte after the opcode can be read; under any other mode the
guard's fault. It covers `pc` = 0xFFFF, where the wrap to 0x0000 is the spec's decision D4 (log entry 11). That the guard comes before any
operand read is its D7 (40_addressing_resolver.md section 3; log entry 11). -/
def Obligations.SeiTicks : Prop :=
  (∀ s : State, s.power = .on → readByte s.pc s = .next 0x78 →
    step s = .next { s with pc := s.pc + 1, p := { s.p with i := true } }) ∧
  (∀ s : State, runEffect .sei .implied s = .next { s with pc := s.pc + 1, p := { s.p with i := true } }) ∧
  (∀ (s : State) (mode : Mode), mode ≠ .implied →
    runEffect .sei mode s = .fault (.unsupportedAddressingMode .sei mode))

/-- `JMP` as a tick and as an effect function (43_control_transfer.md): `JMP` fetched by a tick takes `pc` from the two bytes after the
opcode, low byte first, when both lie in the window, and faults with `InvalidAddress(0x0000)` at 0xFFFE and 0xFFFF; the flags and all else
are unchanged; under any mode but Absolute the guard's fault. The wrap of the operand address is the spec's decision D4, the order of the
byte reads and the address a failing one names its D5, the unchecked target its D19 (log entry 11). That the guard comes before any operand
read is its D7 (40_addressing_resolver.md section 3), that a fault leaves the state as it was its D6. -/
def Obligations.JmpTicks : Prop :=
  (∀ s : State, s.power = .on → readByte s.pc s = .next 0x4C →
    (s.pc.toNat ≤ 0xFFFD → ∃ (lo hi : Byte) (target : Word), readByte (s.pc + 1) s = .next lo ∧ readByte (s.pc + 2) s = .next hi ∧
      target.toNat = lo.toNat + 256 * hi.toNat ∧ step s = .next { s with pc := target }) ∧
    (s.pc = 0xFFFE ∨ s.pc = 0xFFFF → step s = .fault (.invalidAddress 0x0000) ∧ stateAfter s (step s) = s)) ∧
  (∀ (s : State) (mode : Mode), mode ≠ .absolute →
    runEffect .jmp mode s = .fault (.unsupportedAddressingMode .jmp mode))

/-- The frame of both instructions (10_state.md R12, R15; 20_memory.md R36): no register but `pc` and `P`; of the flags `SEI` writes `I`
alone and `JMP` none; the storage, the power status and the cartridge are unchanged; both store nothing, so every address reads as before.
-/
def Obligations.InstructionFrame : Prop :=
  ∀ (i : Instr) (s t : State), exec i s = .next t →
    (∀ flag, flag ≠ .interruptDisable → t.p.get flag = s.p.get flag) ∧
    (∀ target, i = .jmp target → t.p = s.p) ∧
    t.bus = s.bus ∧ t.power = s.power ∧ t.cart = s.cart ∧
    (∀ a, readByte a t = readByte a s)

/-- When the bytes at the program counter decode to an instruction, a tick while `On` is `exec` of that instruction at that state; when they
decode to no instruction of the table, it is that fault. `exec` itself moves `pc`: the step adds nothing around it (R82, R84). That the
addresses of the bytes wrap past 0xFFFF is the spec's decision D4; that `exec` starts from the resolved operand is the model's (log entry
12). -/
def Obligations.StepRunsDecodedInstruction : Prop :=
  ∀ (s : State) (bytes : List Byte), s.power = .on →
    (∀ (k : Nat) (b : Byte), bytes[k]? = some b → readByte (s.pc + BitVec.ofNat 16 k) s = .next b) →
    (∀ (i : Instr) (rest : List Byte), decode bytes = .ok (i, rest) → i.wellFormed = true ∧ step s = exec i s) ∧
    (∀ b0, decode bytes = .error (.unsupportedOperation b0) → step s = .fault (.unsupportedOperation b0))

/-! ### The tick -/

/-- R81, R116: `tick` raises `NotPowerOn` exactly while `Off`, whatever else holds (no cartridge, an unmapped `pc`, an illegal byte), and
changes nothing. -/
def Obligations.NotPowerOnExactlyWhenOff : Prop :=
  ∀ s : State, (step s = .fault .notPowerOn ↔ s.power = .off) ∧ (s.power = .off → stateAfter s (step s) = s)

/-- R113: `UnsupportedOperation(b)` exactly when the byte fetched at `pc` is `b` and is neither 0x78 nor 0x4C; the state is unchanged, so
that `pc` still names the byte. -/
def Obligations.UnsupportedOperationExactly : Prop :=
  ∀ (s : State) (b : Byte),
    (step s = .fault (.unsupportedOperation b) ↔
      s.power = .on ∧ readByte s.pc s = .next b ∧ b ≠ 0x78 ∧ b ≠ 0x4C) ∧
    (step s = .fault (.unsupportedOperation b) → stateAfter s (step s) = s)

/-- When a tick raises `InvalidAddress` (60_exceptions.md section 1, the table under `InvalidAddress`, which the spec derives): the opcode
fetch below the window, with `pc` as the address, or an operand byte of a `JMP` at 0xFFFE or 0xFFFF, with address 0x0000; and never
otherwise. The wrap of the operand address is the spec's decision D4. That the fault names the address of the failing byte, and which byte
is read first, is its D5 (log entry 11). That a read below the window faults so even where there is no bus content, a state no run reaches,
is the model's reading (log entry 5). -/
def Obligations.InvalidAddressExactly : Prop :=
  ∀ (s : State) (a : Word),
    step s = .fault (.invalidAddress a) ↔
      s.power = .on ∧
        ((s.pc.toNat < 0x8000 ∧ a = s.pc) ∨
         (readByte s.pc s = .next 0x4C ∧ (s.pc = 0xFFFE ∨ s.pc = 0xFFFF) ∧ a = 0x0000))

/-- A tick while `On`, from a state that meets the invariant, either succeeds or raises `InvalidAddress` or `UnsupportedOperation`
(95_test_vectors.md, property 1, which the spec derives). That the address of `InvalidAddress` is `pc` or 0x0000 is no part of that
property: it is the table under `InvalidAddress` (60_exceptions.md section 1, R112), where 0x0000 rests on the wrap of operand addresses,
the spec's decision D4, and on the failing byte being the one named, its D5 (log entry 11). That the model never refuses there is the
model's own (log entry 5). The premise holds the canonical form of the storage, which is the model's own (log entry 3). -/
def Obligations.TickOutcomesWhileOn : Prop :=
  ∀ s : State, s.Inv → s.power = .on →
    (∃ t, step s = .next t) ∨ step s = .fault (.invalidAddress s.pc) ∨ step s = .fault (.invalidAddress 0x0000) ∨
    (∃ b, step s = .fault (.unsupportedOperation b))

/-- A successful tick changes at most `pc` and `I`, and `I` only to 1; storage, power and cartridge are as before, and so is every read
(95_test_vectors.md, properties 2 to 4, which the spec derives). The wrap of `pc + 1` is the spec's decision D4, which a successful tick
meets at `SEI` at 0xFFFF only; that the word a `JMP` takes is not checked is its D19. -/
def Obligations.StepFrame : Prop :=
  ∀ s t : State, step s = .next t →
    (t.p = s.p ∨ t.p = { s.p with i := true }) ∧
    t.bus = s.bus ∧ t.power = s.power ∧ t.cart = s.cart ∧ (∀ a, readByte a t = readByte a s) ∧
    ((t.pc = s.pc + 1 ∧ t.p.i = true) ∨ (t.p = s.p ∧ readWord (s.pc + 1) s = .next t.pc))

/-- The outcome of a tick is a function of `power`, `pc` and the bytes at `pc`, `pc +16 1` and `pc +16 2` (41_dispatch_and_effects.md
section 3): two states that agree on these fault alike or go on alike, to the same `pc` and with the same change of the flags, whatever
their flags, their cartridges and the rest of their storage. That the addresses of the bytes wrap is the spec's decision D4. -/
def Obligations.TickDependsOnlyOnFetchedBytes : Prop :=
  ∀ s s' : State, s.power = s'.power → s.pc = s'.pc →
    readByte s.pc s = readByte s'.pc s' → readByte (s.pc + 1) s = readByte (s'.pc + 1) s' →
    readByte (s.pc + 2) s = readByte (s'.pc + 2) s' →
    (∀ f, step s = .fault f ↔ step s' = .fault f) ∧
    (∀ t, step s = .next t → ∃ t', step s' = .next t' ∧ t'.pc = t.pc ∧
      ((t.p = s.p ∧ t'.p = s'.p) ∨ (t.p = { s.p with i := true } ∧ t'.p = { s'.p with i := true })))

/-- `SEI` at 0xFFFF succeeds and wraps `pc` to 0x0000, and the next tick faults there (42_flag_instructions.md corner case 1; the wrap is
the spec's decision D4). -/
def Obligations.SeiAtTopWrapsThenFaults : Prop :=
  ∀ s : State, s.power = .on → s.pc = 0xFFFF → readByte s.pc s = .next 0x78 →
    ∃ t, step s = .next t ∧ t.pc = 0x0000 ∧ t.p.i = true ∧ step t = .fault (.invalidAddress 0x0000)

/-- A `JMP` to its own address runs for ever: every number of ticks succeeds and leaves the state as it was (41_dispatch_and_effects.md
section 3; that this is a legal run and no halt is the spec's decision D15). -/
def Obligations.SelfJumpRunsForever : Prop :=
  ∀ (s : State) (lo hi : Byte), s.power = .on →
    readByte s.pc s = .next 0x4C → readByte (s.pc + 1) s = .next lo → readByte (s.pc + 2) s = .next hi →
    s.pc.toNat = lo.toNat + 256 * hi.toNat →
    (∀ n : Nat, ticks n s = .next s) ∧ NeverFaults s

/-- With a 16 KiB image the two copies of an address run alike but for the arithmetic on `pc` (95_test_vectors.md, property 6, which the
spec derives): the same illegal byte faults in both; `SEI` leaves the two `pc` 0x4000 apart; a `JMP` whose operand is readable in the upper
copy goes to the same target from both. The wrap of `pc` in the upper copy (`SEI` at 0xFFFF) is the spec's decision D4. -/
def Obligations.MirroredCopiesRunAlike : Prop :=
  ∀ (s u : State) (bus : MemoryBus), s.bus = some bus → bus.romSize = 16384 → s.power = .on →
    0x8000 ≤ s.pc.toNat → s.pc.toNat ≤ 0xBFFF → u = moveProgramCounter (s.pc + 0x4000) s →
    (∀ b, step s = .fault (.unsupportedOperation b) ↔ step u = .fault (.unsupportedOperation b)) ∧
    (readByte s.pc s = .next 0x78 → ∃ t, step s = .next t ∧ step u = .next (moveProgramCounter (t.pc + 0x4000) t)) ∧
    (readByte s.pc s = .next 0x4C → s.pc.toNat ≤ 0xBFFD → ∃ t, step s = .next t ∧ step u = .next t)

/-! ### The console -/

/-- `insert_cartridge` of any legal sequence of bytes, in either power state (70_reset_and_hazards.md, the pseudocode of `insert_cartridge`
and of the reset routine): the bus and the slot hold the image, `pc` is the little-endian word at storage offsets `0x7FFC mod size` and
`0x7FFD mod size`, all flags are 0, `power` is as before. The model's input is any list of bytes, any declared size and any trainer flag;
that the declared size is not checked is the spec's decision D12, that the vector is not checked its D19. The bytes are given in the model's
representation, which is exact (log entry 3). -/
def Obligations.InsertCartridgeLoadsAndResets : Prop :=
  ∀ (s : State) (bytes : List Byte) (declared : Nat) (trainer : Bool) (reason : String),
    bytes.length ∈ Config.storageSizes →
    ∃ (lo hi : Byte) (t : State),
      bytes[0x7FFC % bytes.length]? = some lo ∧ bytes[0x7FFD % bytes.length]? = some hi ∧
      insertCartridge { storageSize := declared, storageBytes := Memory.ofList bytes, trainerPresent := trainer } reason s =
        .next t ∧
      t.pc.toNat = lo.toNat + 256 * hi.toNat ∧ (∀ flag, t.p.get flag = false) ∧ t.power = s.power ∧
      t.bus = some { rom := Memory.ofList bytes } ∧
      t.cart = some { storageSize := declared, storageBytes := Memory.ofList bytes, trainerPresent := trainer }

/-- `insert_cartridge` of any other number of bytes (20_memory.md section 2; 60_exceptions.md section 1): `InvalidRomSize` with the number
offered, and everything, an earlier cartridge included, stays as it was (the spec's decision D18). The text is whatever the environment puts
there (log entry 4). That the bytes are counted and the declared size is not looked at is the spec's decision D12, that a fault leaves the
state as it was its D6 (log entry 11). The bytes are given in the model's representation, which is exact (log entry 3). -/
def Obligations.InsertCartridgeRejectsOtherSizes : Prop :=
  ∀ (s : State) (bytes : List Byte) (declared : Nat) (trainer : Bool) (reason : String),
    bytes.length ≠ 16384 → bytes.length ≠ 32768 →
    insertCartridge { storageSize := declared, storageBytes := Memory.ofList bytes, trainerPresent := trainer } reason s =
      .fault (.invalidRomSize reason bytes.length) ∧
    stateAfter s (insertCartridge
      { storageSize := declared, storageBytes := Memory.ofList bytes, trainerPresent := trainer } reason s) = s

/-- `power_on` (70_reset_and_hazards.md section 1; 60_exceptions.md section 1): while `On` it succeeds with no change, which is the spec's
decision D20 (log entry 11); while `Off` without a cartridge it raises `NoRomInserted`, and only then; while `Off` with one it changes
`power` and nothing else. -/
def Obligations.PowerOnNeedsCartridge : Prop :=
  ∀ s : State,
    (s.power = .on → powerOn s = .next s) ∧
    (powerOn s = .fault .noRomInserted ↔ s.power = .off ∧ s.cart = none) ∧
    (s.power = .off → s.cart = none → stateAfter s (powerOn s) = s) ∧
    (s.power = .off → s.cart ≠ none → powerOn s = .next { s with power := .on })

/-- No operation of the host leads back: `On` stays `On`, and a filled slot stays filled (70_reset_and_hazards.md section 1; that no
operation does so is the spec's decision D14). That a failed operation leaves everything as it was is its D6, an earlier cartridge included
its D18 (log entry 11). -/
def Obligations.PowerAndCartridgeAreNeverLost : Prop :=
  ∀ (op : HostOp) (s : State),
    (s.power = .on → (stateAfter s (operate op s)).power = .on) ∧
    (s.cart ≠ none → (stateAfter s (operate op s)).cart ≠ none) ∧
    (s.bus ≠ none → (stateAfter s (operate op s)).bus ≠ none)

/-- Which operations change what (10_state.md sections 2, 3 and 6): `I` goes from 1 to 0 only in an insertion, and the storage or the
cartridge changes only in an insertion of a legal size; `power` changes only in `power_on`. That there are no other operations is the spec's
decision D14, that `power_on` changes nothing while `On` its D20 (log entry 11). `operate`, any one of the three, is the model's (log entry
2); that the number of bytes and not the declared size is tested is the spec's decision D12. -/
def Obligations.OnlyInsertionClearsOrReloads : Prop :=
  ∀ (op : HostOp) (s t : State), operate op s = .next t →
    (s.p.i = true → t.p.i = false → ∃ image reason, op = .insertCartridge image reason) ∧
    (t.bus ≠ s.bus ∨ t.cart ≠ s.cart → ∃ image reason, op = .insertCartridge image reason ∧
      image.storageBytes.size ∈ Config.storageSizes) ∧
    (t.power ≠ s.power → op = .powerOn)

/-- The trainer flag and the declared size have no effect (10_state.md section 7; the spec's decision D12): two consoles that differ only in
these, given the same operations but for these, answer the same faults and go to states that differ only in these, so that the host observes
the same. That the host observes `pc`, the flags and `power` is the spec's decision D1. -/
def Obligations.TrainerFlagHasNoEffect : Prop :=
  ∀ (s : State) (image : CartridgeImage) (declared : Nat) (trainer : Bool) (reason : String),
    let other : CartridgeImage → CartridgeImage := fun im => { im with storageSize := declared, trainerPresent := trainer }
    let twin : State → State := fun x => { x with cart := x.cart.map other }
    (∀ x, (twin x).observe = x.observe) ∧
    (∀ f, step s = .fault f ↔ step (twin s) = .fault f) ∧
    (∀ t, step s = .next t → step (twin s) = .next (twin t)) ∧
    (∀ f, powerOn s = .fault f ↔ powerOn (twin s) = .fault f) ∧
    (∀ t, powerOn s = .next t → powerOn (twin s) = .next (twin t)) ∧
    (∀ f, insertCartridge image reason s = .fault f ↔ insertCartridge (other image) reason (twin s) = .fault f) ∧
    (∀ t, insertCartridge image reason s = .next t → insertCartridge (other image) reason (twin s) = .next (twin t))

/-! ### Runs and invariants -/

/-- A run ends exactly at its first faulting tick, with the state before that tick and its fault (70_reset_and_hazards.md section 6; the
definition is the spec's decision D15): what came before ran without ending, and what comes after is not looked at. That a fault of another
operation ends no run and leaves the state as it was is its D6 (60_exceptions.md section 2). `run` over a list of operations is the model's
(log entry 2). -/
def Obligations.RunEndsAtFirstTickFault : Prop :=
  ∀ (ops : List HostOp) (s u : State) (f : Fault),
    run ops s = .ended u f ↔
      ∃ before after, ops = before ++ .tick :: after ∧ run before s = .running u ∧ step u = .fault f

/-- Every step keeps the invariant of the core (10_state.md section 9, which the spec derives): `On` only with a cartridge, bus and
cartridge in agreement, a legal storage size, no flag but `I`; and the storage in the model's canonical form. The canonical form is the
model's own (log entry 3). -/
def Obligations.StepKeepsInvariant : Prop :=
  ∀ s t : State, s.Inv → step s = .next t → t.Inv

/-- Every host operation keeps the invariant, whatever the image's bytes, number of bytes, declared size and trainer flag. The invariant is
that of 10_state.md section 9, the operations those of 70_reset_and_hazards.md section 1; that a failed one changes nothing is the spec's
decision D6 (and D18), and the canonical form asked of an image's bytes is the model's own (log entry 3). That the operations are these
three is the spec's D14 (log entry 2), that the number of bytes and not the declared size is tested its D12. -/
def Obligations.HostOperationsKeepInvariant : Prop :=
  ∀ (op : HostOp) (s : State), op.wf → s.Inv → (stateAfter s (operate op s)).Inv

/-- From construction, whatever the host does: every state meets the invariant, `P` is all 0 or has only `I` set (10_state.md sections 3 and
9, which the spec derives), and no operation is ever refused by the model: each answers a state or one of the spec's faults. What else this
rests on: that the storage is in canonical form is the model's own clause of the invariant, and `Reachable` asks that form of an image's
bytes and nothing else (`HostOp.wf`, log entry 3); that the host has these three operations in any order is the spec's decision D14 and log
entry 2; that a failed operation leaves the state as it was is D6, an earlier cartridge included D18; that the size tested is the number of
bytes and not the declared one is D12; that there is no bus content before an insertion is D13 (log entry 11). The clause about `P_byte`
rests on the positions of the flags and the value 0 of the unused bit, D2 and D3 (log entry 6). The refusal that never comes is the model's
own (log entry 5). -/
def Obligations.ReachableStatesMeetInvariant : Prop :=
  ∀ s : State, Reachable s → s.Inv ∧ (s.pByte = 0x00 ∨ s.pByte = 0x04) ∧
    (∀ op : HostOp, ∀ r : Refusal, operate op s ≠ .refused r)

/-- That `pc` lies in the window is NO invariant (10_state.md R13; 90_conflicts.md C2; the spec's decision D19): a host can bring the core,
powered on, from a `pc` in the window to one outside it by a successful tick, and the next tick faults with that `pc`. Reachability is
through host operations on images in canonical form (log entries 2 and 3). -/
def Obligations.ProgramCounterLeavesWindow : Prop :=
  ∃ s t : State, Reachable s ∧ 0x8000 ≤ s.pc.toNat ∧ step s = .next t ∧ t.pc.toNat < 0x8000 ∧
    step t = .fault (.invalidAddress t.pc)

/-! ### How a program comes to run -/

/-- The model's choice (log entries 1 and 9): what `withFetchWord` makes of the construction state is what a host makes of it by inserting a
32 KiB image and powering on, and nothing else. The canonical form of the image is log entry 3. -/
def Obligations.FetchWordIsInsertionAndPowerOn : Prop :=
  ∀ (nbits w : Nat) (reason : String), ∃ (image : CartridgeImage) (s : State),
    image.storageBytes.wf ∧ image.storageBytes.size = 32768 ∧
    operate (.insertCartridge image reason) State.reset = .next s ∧
    operate .powerOn s = .next (State.reset.withFetchWord nbits w)

/-- The model's choice (log entry 9): from any state that meets the invariant, the step after `withFetchWord` runs exactly the placed
instruction, the invariant still holds, and the flags, the size of a storage already there and a `pc` with room for the instruction are
kept. The invariant holds the storage's canonical form, the model's own (log entry 3). -/
def Obligations.FetchWordRunsItsInstruction : Prop :=
  ∀ (s : State) (nbits w : Nat), s.Inv →
    (∀ i, decodeTableWord nbits w = some i →
      step (s.withFetchWord nbits w) = exec i (s.withFetchWord nbits w)) ∧
    (s.withFetchWord nbits w).Inv ∧ (s.withFetchWord nbits w).p = s.p ∧
    (∀ bus, s.bus = some bus → ∃ bus', (s.withFetchWord nbits w).bus = some bus' ∧ bus'.romSize = bus.romSize) ∧
    (0x8000 ≤ s.pc.toNat → s.pc.toNat ≤ 0xFFFD → (s.withFetchWord nbits w).pc = s.pc)
end

