-- ==== Sys2Proof/Laws/Ops.lean ====
section
/-! SUPPORT. What each shared operation can do, said once. -/

namespace Sys2Proof.Machine

@[simp] theorem andThen_next {α β : Type} (a : α) (f : α → Result β) : andThen (.next a) f = f a := rfl
@[simp] theorem andThen_fault {α β : Type} (e : Fault) (f : α → Result β) : andThen (.fault e) f = .fault e := rfl
@[simp] theorem andThen_refused {α β : Type} (e : Refusal) (f : α → Result β) : andThen (.refused e) f = .refused e := rfl
@[simp] theorem andThen_raise {α β : Type} (e : Fault) (f : α → Result β) : andThen (raise e) f = raise e := rfl

@[simp] theorem stateAfter_next (s t : State) : stateAfter s (.next t) = t := rfl
@[simp] theorem stateAfter_fault (s : State) (f : Fault) : stateAfter s (.fault f) = s := rfl
@[simp] theorem stateAfter_refused (s : State) (r : Refusal) : stateAfter s (.refused r) = s := rfl

/-- If a sequence of two operations answers a value, each did. -/
theorem andThen_eq_next {α β : Type} {r : Result α} {f : α → Result β} {b : β} :
    andThen r f = .next b ↔ ∃ a, r = .next a ∧ f a = .next b := by
  cases r <;> simp [andThen]

/-- If a sequence of two operations faults, the first did, or the second did after the first answered. -/
theorem andThen_eq_fault {α β : Type} {r : Result α} {f : α → Result β} {e : Fault} :
    andThen r f = .fault e ↔ r = .fault e ∨ ∃ a, r = .next a ∧ f a = .fault e := by
  cases r <;> simp [andThen]

/-- The offset formula on natural numbers, for an address in the window (R32). -/
theorem storageOffset_eq {a : Word} (h : 0x8000 ≤ a.toNat) (romSize : Nat) :
    storageOffset a romSize = (a.toNat - 0x8000) % romSize := by
  have hlt := a.isLt
  have hsub : (a - BitVec.ofNat 16 Config.windowBase).toNat = a.toNat - 0x8000 := by
    rw [BitVec.toNat_sub, show (BitVec.ofNat 16 Config.windowBase).toNat = 0x8000 by decide]
    omega
  rw [storageOffset, hsub]

/-- A read of a byte: below the window the fault of its address, inside it the byte of the storage, or a refusal where there is no
storage. -/
theorem readByte_cases (a : Word) (s : State) :
    (a.toNat < Config.windowBase ∧ readByte a s = .fault (.invalidAddress a)) ∨
    (Config.windowBase ≤ a.toNat ∧ s.bus = none ∧ readByte a s = .refused .busAbsent) ∨
    (Config.windowBase ≤ a.toNat ∧ ∃ bus, s.bus = some bus ∧
      readByte a s = .next (bus.rom.read (storageOffset a bus.romSize))) := by
  by_cases h : a.toNat < Config.windowBase
  · exact .inl ⟨h, by rw [readByte, if_pos h, raise]⟩
  · rw [readByte, if_neg h]
    cases hb : s.bus with
    | none => exact .inr (.inl ⟨by omega, rfl, rfl⟩)
    | some bus => exact .inr (.inr ⟨by omega, bus, rfl, rfl⟩)

/-- A byte that is answered was read inside the window from the storage. -/
theorem readByte_eq_next {a : Word} {s : State} {b : Byte} :
    readByte a s = .next b ↔
      Config.windowBase ≤ a.toNat ∧ ∃ bus, s.bus = some bus ∧ bus.rom.read (storageOffset a bus.romSize) = b := by
  rcases readByte_cases a s with ⟨h, e⟩ | ⟨h, hb, e⟩ | ⟨h, bus, hb, e⟩
  · rw [e]; constructor
    · intro h'; cases h'
    · rintro ⟨h', -⟩; omega
  · rw [e, hb]; constructor
    · intro h'; cases h'
    · rintro ⟨-, bus, h', -⟩; cases h'
  · rw [e]; constructor
    · intro h'; exact ⟨h, bus, hb, by injection h'⟩
    · rintro ⟨-, bus', hb', rfl⟩
      rw [hb] at hb'; injection hb' with hb'; rw [hb']

/-- A byte read faults only below the window, with its own address. -/
theorem readByte_eq_fault {a : Word} {s : State} {f : Fault} :
    readByte a s = .fault f ↔ a.toNat < Config.windowBase ∧ f = .invalidAddress a := by
  rcases readByte_cases a s with ⟨h, e⟩ | ⟨h, hb, e⟩ | ⟨h, bus, hb, e⟩ <;> rw [e]
  · exact ⟨fun h' => ⟨h, by injection h' with h'; exact h'.symm⟩, fun h' => by rw [h'.2]⟩
  · exact ⟨nofun, fun h' => by omega⟩
  · exact ⟨nofun, fun h' => by omega⟩

/-- A word that is answered is made of two bytes that are answered. -/
theorem readWord_eq_next {a : Word} {s : State} {w : Word} :
    readWord a s = .next w ↔ ∃ lo hi, readByte a s = .next lo ∧ readByte (a + 1) s = .next hi ∧ w = wordOf hi lo := by
  simp only [readWord, andThen_eq_next, Host.Outcome.next.injEq]
  constructor
  · rintro ⟨lo, hlo, hi, hhi, rfl⟩; exact ⟨lo, hi, hlo, hhi, rfl⟩
  · rintro ⟨lo, hi, hlo, hhi, rfl⟩; exact ⟨lo, hlo, hi, hhi, rfl⟩

/-- A read depends on the storage alone. -/
theorem readByte_congr {s t : State} (h : s.bus = t.bus) (a : Word) : readByte a s = readByte a t := by
  rw [readByte, readByte, h]

/-- A word read depends on the storage alone. -/
theorem readWord_congr {s t : State} (h : s.bus = t.bus) (a : Word) : readWord a s = readWord a t := by
  rw [readWord, readWord, readByte_congr h, readByte_congr h]

@[simp] theorem Status.get_set_self (p : Status) (flag : Flag) (e : Bool) : (p.set flag e).get flag = e := by
  cases flag <;> rfl

theorem Status.get_set_ne (p : Status) {flag other : Flag} (e : Bool) (h : other ≠ flag) :
    (p.set flag e).get other = p.get other := by
  cases flag <;> cases other <;> first | rfl | exact absurd rfl h

end Sys2Proof.Machine
end

