-- ==== Sys2Proof/Laws/State.lean ====
section
/-! SUPPORT. One lemma per field per update of State, so that no later proof unfolds a record update. -/

namespace Sys2Proof.Machine

section
variable (s : State) (v : Word) (n : Nat) (flag : Flag) (e : Bool) (w : Power) (bus : MemoryBus) (image : CartridgeImage)

@[simp] theorem moveProgramCounter_pc : (moveProgramCounter v s).pc = v := rfl
@[simp] theorem moveProgramCounter_p : (moveProgramCounter v s).p = s.p := rfl
@[simp] theorem moveProgramCounter_bus : (moveProgramCounter v s).bus = s.bus := rfl
@[simp] theorem moveProgramCounter_power : (moveProgramCounter v s).power = s.power := rfl
@[simp] theorem moveProgramCounter_cart : (moveProgramCounter v s).cart = s.cart := rfl

@[simp] theorem fallThrough_pc : (fallThrough n s).pc = s.pc + BitVec.ofNat 16 (1 + n) := rfl
@[simp] theorem fallThrough_p : (fallThrough n s).p = s.p := rfl
@[simp] theorem fallThrough_bus : (fallThrough n s).bus = s.bus := rfl
@[simp] theorem fallThrough_power : (fallThrough n s).power = s.power := rfl
@[simp] theorem fallThrough_cart : (fallThrough n s).cart = s.cart := rfl

@[simp] theorem updateProcessorStatus_pc : (updateProcessorStatus flag e s).pc = s.pc := rfl
@[simp] theorem updateProcessorStatus_p : (updateProcessorStatus flag e s).p = s.p.set flag e := rfl
@[simp] theorem updateProcessorStatus_bus : (updateProcessorStatus flag e s).bus = s.bus := rfl
@[simp] theorem updateProcessorStatus_power : (updateProcessorStatus flag e s).power = s.power := rfl
@[simp] theorem updateProcessorStatus_cart : (updateProcessorStatus flag e s).cart = s.cart := rfl

@[simp] theorem clearFlags_pc : (clearFlags s).pc = s.pc := rfl
@[simp] theorem clearFlags_p : (clearFlags s).p = Status.clear := rfl
@[simp] theorem clearFlags_bus : (clearFlags s).bus = s.bus := rfl
@[simp] theorem clearFlags_power : (clearFlags s).power = s.power := rfl
@[simp] theorem clearFlags_cart : (clearFlags s).cart = s.cart := rfl

@[simp] theorem setPower_pc : (setPower w s).pc = s.pc := rfl
@[simp] theorem setPower_p : (setPower w s).p = s.p := rfl
@[simp] theorem setPower_bus : (setPower w s).bus = s.bus := rfl
@[simp] theorem setPower_power : (setPower w s).power = w := rfl
@[simp] theorem setPower_cart : (setPower w s).cart = s.cart := rfl

@[simp] theorem putCartridge_pc : (putCartridge bus image s).pc = s.pc := rfl
@[simp] theorem putCartridge_p : (putCartridge bus image s).p = s.p := rfl
@[simp] theorem putCartridge_bus : (putCartridge bus image s).bus = some bus := rfl
@[simp] theorem putCartridge_power : (putCartridge bus image s).power = s.power := rfl
@[simp] theorem putCartridge_cart : (putCartridge bus image s).cart = some image := rfl

end

/-- Two states with equal fields are equal. -/
theorem State.ext_fields {s t : State} (hpc : s.pc = t.pc) (hp : s.p = t.p) (hbus : s.bus = t.bus)
    (hpower : s.power = t.power) (hcart : s.cart = t.cart) : s = t := by
  cases s; cases t; simp_all

end Sys2Proof.Machine
end

