-- ==== Sys2Proof/Laws/Console.lean ====
section
/-! SUPPORT. What the console's operations can do, said once. -/

namespace Sys2Proof.Machine

/-- Construction of the bus: the bytes offered, or the fault of their number. -/
theorem newBus_cases (bytes : Memory) (reason : String) :
    (bytes.size ∈ Config.storageSizes ∧ newBus bytes reason = .next { rom := bytes }) ∨
    (bytes.size ∉ Config.storageSizes ∧ newBus bytes reason = .fault (.invalidRomSize reason bytes.size)) := by
  by_cases h : bytes.size ∈ Config.storageSizes
  · exact .inl ⟨h, by rw [newBus, if_pos h]⟩
  · exact .inr ⟨h, by rw [newBus, if_neg h, raise]⟩

/-- The two bytes of the reset vector are always readable where there is storage. -/
theorem readWord_resetVector {s : State} {bus : MemoryBus} (h : s.bus = some bus) :
    readWord Config.resetVector s = .next (wordOf (bus.rom.read (0x7FFD % bus.romSize)) (bus.rom.read (0x7FFC % bus.romSize))) :=
  readWord_eq_next.2 ⟨_, _,
    readByte_eq_next.2 ⟨by decide, bus, h, rfl⟩, readByte_eq_next.2 ⟨by decide, bus, h, rfl⟩, rfl⟩

/-- An insertion of a legal size: the new storage, the new cartridge, `pc` from the vector, flags clear, power as before. -/
theorem insertCartridge_next {image : CartridgeImage} (reason : String) (s : State)
    (h : image.storageBytes.size ∈ Config.storageSizes) :
    insertCartridge image reason s = .next
      { pc := wordOf (image.storageBytes.read (0x7FFD % image.storageBytes.size))
          (image.storageBytes.read (0x7FFC % image.storageBytes.size)),
        p := Status.clear, bus := some { rom := image.storageBytes }, power := s.power, cart := some image } := by
  rw [insertCartridge, newBus, if_pos h, andThen_next, cpuReset, readWord_resetVector (putCartridge_bus s _ image)]
  rfl

/-- An insertion of any other size faults. -/
theorem insertCartridge_fault {image : CartridgeImage} (reason : String) (s : State)
    (h : image.storageBytes.size ∉ Config.storageSizes) :
    insertCartridge image reason s = .fault (.invalidRomSize reason image.storageBytes.size) := by
  rw [insertCartridge, newBus, if_neg h]; rfl

/-- Everything `power_on` can do. -/
theorem powerOn_cases (s : State) :
    (s.power = .on ∧ powerOn s = .next s) ∨
    (s.power = .off ∧ s.cart = none ∧ powerOn s = .fault .noRomInserted) ∨
    (s.power = .off ∧ s.cart ≠ none ∧ powerOn s = .next (setPower .on s)) := by
  rw [powerOn]
  cases hp : s.power with
  | on => exact .inl ⟨rfl, rfl⟩
  | off =>
    cases hc : s.cart with
    | none => exact .inr (.inl ⟨rfl, rfl, rfl⟩)
    | some image => exact .inr (.inr ⟨rfl, by simp, rfl⟩)

end Sys2Proof.Machine
end

