-- ==== Sys2Proof/Laws/Decode.lean ====
section
/-! SUPPORT. The small lemmas of word assembly and of the lookup in the fixed table. -/

namespace Sys2Proof

/-- A word is its low byte plus 256 times its high byte (00_scope.md R6). -/
theorem wordOf_toNat (hi lo : Byte) : (wordOf hi lo).toNat = lo.toNat + 256 * hi.toNat := by
  have hlo := lo.isLt
  simp only [wordOf, BitVec.toNat_append]
  rw [← Nat.shiftLeft_add_eq_or_of_lt hlo, Nat.shiftLeft_eq]
  omega

@[simp] theorem lowByte_wordOf (hi lo : Byte) : lowByte (wordOf hi lo) = lo := by
  apply BitVec.eq_of_toNat_eq
  have hlo := lo.isLt
  simp only [lowByte, BitVec.extractLsb'_toNat, wordOf_toNat, Nat.shiftRight_zero]
  omega

@[simp] theorem highByte_wordOf (hi lo : Byte) : highByte (wordOf hi lo) = hi := by
  apply BitVec.eq_of_toNat_eq
  have hlo := lo.isLt
  have hhi := hi.isLt
  simp only [highByte, BitVec.extractLsb'_toNat, wordOf_toNat, Nat.shiftRight_eq_div_pow]
  omega

@[simp] theorem wordOf_highByte_lowByte (w : Word) : wordOf (highByte w) (lowByte w) = w := by
  apply BitVec.eq_of_toNat_eq
  have hw := w.isLt
  simp only [wordOf_toNat, lowByte, highByte, BitVec.extractLsb'_toNat, Nat.shiftRight_eq_div_pow]
  omega

/-- The lookup of the fixed table: two bytes are found and every other byte is not. -/
theorem lookup_eq (b0 : Byte) :
    lookup b0 = if b0 = 0x78 then some { opcode := 0x78, mnemonic := .sei, mode := .implied }
      else if b0 = 0x4C then some { opcode := 0x4C, mnemonic := .jmp, mode := .absolute } else none := by
  revert b0; decide

theorem lookup_other {b0 : Byte} (h78 : b0 ≠ 0x78) (h4C : b0 ≠ 0x4C) : lookup b0 = none := by
  rw [lookup_eq, if_neg h78, if_neg h4C]

end Sys2Proof
end

