-- ==== Sys2Proof/Laws/Memory.lean ====
section
/-! SUPPORT. What the operations on byte sequences do, and that each keeps the canonical form. -/

namespace Sys2Proof.Machine

/-- Cells are canonical from an offset on: rising, none below it, none equal to what an unlisted offset reads as. -/
abbrev CellsFrom (lo : Nat) (cells : List Host.Cell) : Prop :=
  cells.Pairwise (fun x y => x.1 < y.1) ∧ ∀ x ∈ cells, lo ≤ x.1 ∧ x.2 ≠ Config.unlistedByte

theorem CellsFrom.mono {lo lo' : Nat} {cells : List Host.Cell} (h : CellsFrom lo cells) (hle : lo' ≤ lo) :
    CellsFrom lo' cells :=
  ⟨h.1, fun x hx => ⟨hle.trans (h.2 x hx).1, (h.2 x hx).2⟩⟩

theorem CellsFrom.tail {lo : Nat} {x : Host.Cell} {cells : List Host.Cell} (h : CellsFrom lo (x :: cells)) :
    CellsFrom (x.1 + 1) cells :=
  ⟨(List.pairwise_cons.1 h.1).2, fun y hy =>
    ⟨(List.pairwise_cons.1 h.1).1 y hy, (h.2 y (List.mem_cons_of_mem x hy)).2⟩⟩

theorem CellsFrom.cons {lo : Nat} {x : Host.Cell} {cells : List Host.Cell} (h : CellsFrom (x.1 + 1) cells)
    (hlo : lo ≤ x.1) (hx : x.2 ≠ Config.unlistedByte) : CellsFrom lo (x :: cells) := by
  refine ⟨List.pairwise_cons.2 ⟨fun y hy => (h.2 y hy).1, h.1⟩, fun y hy => ?_⟩
  rcases List.mem_cons.1 hy with rfl | hy
  · exact ⟨hlo, hx⟩
  · have := (h.2 y hy).1
    exact ⟨by omega, (h.2 y hy).2⟩

/-- Below the first listed offset every byte is unlisted. -/
theorem lookupCell_below {lo off : Nat} {cells : List Host.Cell} (h : CellsFrom lo cells) (hoff : off < lo) :
    lookupCell cells off = Config.unlistedByte := by
  induction cells generalizing lo with
  | nil => rfl
  | cons x rest ih =>
    have hx := (h.2 x (List.mem_cons_self ..)).1
    rw [lookupCell, if_neg (by omega)]
    exact ih h.tail (by omega)

theorem consCell_canonical {lo off : Nat} {b : Byte} {rest : List Host.Cell} (h : CellsFrom (off + 1) rest)
    (hlo : lo ≤ off) : CellsFrom lo (consCell off b rest) := by
  rw [consCell]
  split
  · exact h.mono (by omega)
  · exact h.cons hlo ‹_›

theorem lookupCell_consCell {off : Nat} {b : Byte} {rest : List Host.Cell} (h : CellsFrom (off + 1) rest) (k : Nat) :
    lookupCell (consCell off b rest) k = if off = k then b else lookupCell rest k := by
  rw [consCell]
  split
  · split
    · subst_vars; exact lookupCell_below h (Nat.lt_succ_self _)
    · rfl
  · rfl

theorem putCell_canonical {lo off : Nat} {b : Byte} {cells : List Host.Cell} (h : CellsFrom lo cells) (hlo : lo ≤ off) :
    CellsFrom lo (putCell cells off b) := by
  induction cells generalizing lo with
  | nil => exact consCell_canonical ⟨List.Pairwise.nil, by simp⟩ hlo
  | cons x rest ih =>
    have hx := h.2 x (List.mem_cons_self ..)
    rw [putCell]
    split
    · exact (ih h.tail (by omega)).cons hx.1 hx.2
    · split
      · exact consCell_canonical (‹x.1 = off› ▸ h.tail) hlo
      · exact consCell_canonical (h.tail.cons (by omega) hx.2) hlo

theorem lookupCell_putCell {lo off : Nat} {b : Byte} {cells : List Host.Cell} (h : CellsFrom lo cells) (k : Nat) :
    lookupCell (putCell cells off b) k = if off = k then b else lookupCell cells k := by
  induction cells generalizing lo with
  | nil => exact lookupCell_consCell ⟨List.Pairwise.nil, by simp⟩ k
  | cons x rest ih =>
    have hx := h.2 x (List.mem_cons_self ..)
    rw [putCell]
    split
    · rw [lookupCell, lookupCell, ih h.tail]
      split <;> split <;> first | rfl | omega
    · split
      · rw [lookupCell_consCell (‹x.1 = off› ▸ h.tail), lookupCell]
        split <;> simp_all
      · exact lookupCell_consCell (h.tail.cons (by omega) hx.2) k

theorem mem_consCell {off : Nat} {b : Byte} {rest : List Host.Cell} {x : Host.Cell} (hx : x ∈ consCell off b rest) :
    x.1 = off ∨ x ∈ rest := by
  rw [consCell] at hx
  split at hx
  · exact .inr hx
  · exact (List.mem_cons.1 hx).imp (fun h => by rw [h]) id

/-- Every listed offset of the new cells is a listed offset of the old ones or the one written. -/
theorem mem_putCell {off : Nat} {b : Byte} {cells : List Host.Cell} {x : Host.Cell}
    (hx : x ∈ putCell cells off b) : x.1 = off ∨ x ∈ cells := by
  induction cells with
  | nil => exact mem_consCell hx
  | cons y rest ih =>
    rw [putCell] at hx
    split at hx
    · rcases List.mem_cons.1 hx with rfl | hx
      · exact .inr (List.mem_cons_self ..)
      · exact (ih hx).imp id (List.mem_cons_of_mem y)
    · split at hx
      · exact (mem_consCell hx).imp id (List.mem_cons_of_mem y)
      · exact mem_consCell hx

theorem Memory.wf.cells {m : Memory} (h : m.wf) : CellsFrom 0 m.cells :=
  ⟨h.1, fun x hx => ⟨Nat.zero_le _, (h.2 x hx).2⟩⟩

@[simp] theorem Memory.put_size (m : Memory) (off : Nat) (b : Byte) : (m.put off b).size = m.size := by
  rw [Memory.put]; split <;> rfl

/-- Placing a byte keeps the canonical form. -/
theorem Memory.put_wf {m : Memory} (h : m.wf) (off : Nat) (b : Byte) : (m.put off b).wf := by
  rw [Memory.put]
  split
  · have hc := putCell_canonical (b := b) h.cells (Nat.zero_le off)
    refine ⟨hc.1, fun x hx => ⟨?_, (hc.2 x hx).2⟩⟩
    rcases mem_putCell hx with hx | hx
    · exact hx ▸ ‹off < m.size›
    · exact (h.2 x hx).1
  · exact h

/-- Reading after placing a byte. -/
theorem Memory.read_put {m : Memory} (h : m.wf) {off : Nat} (hoff : off < m.size) (b : Byte) (k : Nat) :
    (m.put off b).read k = if off = k then b else m.read k := by
  rw [Memory.put, if_pos hoff]
  exact lookupCell_putCell h.cells k

theorem cellsFrom_canonical (off : Nat) (bytes : List Byte) : CellsFrom off (cellsFrom off bytes) := by
  induction bytes generalizing off with
  | nil => exact ⟨List.Pairwise.nil, by simp [cellsFrom]⟩
  | cons b rest ih => exact consCell_canonical (ih (off + 1)) le_rfl

theorem cellsFrom_below {off : Nat} {bytes : List Byte} {x : Host.Cell} (hx : x ∈ cellsFrom off bytes) :
    x.1 < off + bytes.length := by
  induction bytes generalizing off with
  | nil => simp [cellsFrom] at hx
  | cons b rest ih =>
    rcases mem_consCell hx with hx | hx
    · simp [hx]
    · have := ih hx
      simp only [List.length_cons]
      omega

/-- Listing bytes gives the canonical form. -/
theorem Memory.ofList_wf (bytes : List Byte) : (Memory.ofList bytes).wf :=
  ⟨(cellsFrom_canonical 0 bytes).1, fun x hx =>
    ⟨by simpa [Memory.ofList] using cellsFrom_below hx, ((cellsFrom_canonical 0 bytes).2 x hx).2⟩⟩

@[simp] theorem Memory.ofList_size (bytes : List Byte) : (Memory.ofList bytes).size = bytes.length := rfl

@[simp] theorem placeBytes_size (m : Memory) (a : Word) (bytes : List Byte) : (placeBytes m a bytes).size = m.size := by
  induction bytes generalizing m a with
  | nil => rfl
  | cons b rest ih => rw [placeBytes, ih, Memory.put_size]

/-- Placing bytes keeps the canonical form. -/
theorem placeBytes_wf {m : Memory} (h : m.wf) (a : Word) (bytes : List Byte) : (placeBytes m a bytes).wf := by
  induction bytes generalizing m a with
  | nil => exact h
  | cons b rest ih => exact ih (Memory.put_wf h _ b) (a + 1)

theorem blankStorage_wf : blankStorage.wf := by decide

end Sys2Proof.Machine
end

