-- ==== Sys2Proof/Laws/Loader.lean ====
section
/-! SUPPORT. What placing an instruction does, said once. -/

namespace Sys2Proof.Machine

section
variable (bytes : List Byte) (s : State)

@[simp] theorem loadProgramBytes_pc : (loadProgramBytes bytes s).pc = loadPc s := rfl
@[simp] theorem loadProgramBytes_p : (loadProgramBytes bytes s).p = s.p := rfl
@[simp] theorem loadProgramBytes_power : (loadProgramBytes bytes s).power = .on := rfl
@[simp] theorem loadProgramBytes_bus :
    (loadProgramBytes bytes s).bus = some { rom := placeBytes (loadBase s) (loadPc s) bytes } := rfl
@[simp] theorem loadProgramBytes_cart :
    (loadProgramBytes bytes s).cart = some (loadImage (placeBytes (loadBase s) (loadPc s) bytes) s) := rfl

end

@[simp] theorem loadImage_storageBytes (rom : Memory) (s : State) : (loadImage rom s).storageBytes = rom := by
  rw [loadImage]; split <;> rfl

/-- The address an instruction is placed at has room for three bytes. -/
theorem loadPc_bounds (s : State) : 0x8000 ≤ (loadPc s).toNat ∧ (loadPc s).toNat ≤ 0xFFFD := by
  rw [loadPc]
  split
  · simpa [holdsInstruction] using ‹holdsInstruction s.pc = true›
  · decide

theorem storageOffset_lt (a : Word) {size : Nat} (h : 0 < size) : storageOffset a size < size := Nat.mod_lt _ h

/-- Reading three placed bytes back, and every other offset as before, wherever the three offsets differ. -/
theorem read_placeBytes_three {m : Memory} (hm : m.wf) {a : Word} (b0 b1 b2 : Byte) (hpos : 0 < m.size) (k : Nat) :
    (placeBytes m a [b0, b1, b2]).read k =
      if storageOffset (a + 1 + 1) m.size = k then b2
      else if storageOffset (a + 1) m.size = k then b1
      else if storageOffset a m.size = k then b0 else m.read k := by
  simp only [placeBytes, Memory.put_size]
  rw [Memory.read_put (Memory.put_wf (Memory.put_wf hm _ _) _ _) (by simpa using storageOffset_lt _ hpos),
    Memory.read_put (Memory.put_wf hm _ _) (by simpa using storageOffset_lt _ hpos),
    Memory.read_put hm (storageOffset_lt _ hpos)]

end Sys2Proof.Machine
end

