-- ==== Sys2Proof/Laws/PerInstr.lean ====
section
/-! SUPPORT. A fact about every instruction, made constructor by constructor. -/

namespace Sys2Proof.Laws.EncodingShape

/-- The encoding begins with an opcode byte of the table, in the entry with the instruction's mnemonic and mode, and has the operand
bytes of that mode after it (30_encoding.md R50, R54). -/
def Statement (i : Instr) : Prop :=
  ∃ b0 rest, encode i = b0 :: rest ∧ rest.length = i.mode.operandBytes ∧
    lookup b0 = some { opcode := b0, mnemonic := i.mnemonic, mode := i.mode } ∧ i.wellFormed = true

theorem sei : Statement .sei := ⟨0x78, [], rfl, rfl, rfl, rfl⟩

theorem jmp (target : Word) : Statement (.jmp target) :=
  ⟨0x4C, [lowByte target, highByte target], rfl, rfl, rfl, rfl⟩

end Sys2Proof.Laws.EncodingShape
end

