-- ==== Sys2Proof/Laws/Tick.lean ====
section
/-! SUPPORT. What an effect function and a tick can do, said once. -/

namespace Sys2Proof.Machine

/-- `SEI` run as an effect function under its own mode is its meaning. -/
theorem runEffect_sei (s : State) : runEffect .sei .implied s = execSei s := rfl

/-- `JMP` run as an effect function under its own mode is the read of its operand, then its meaning. -/
theorem runEffect_jmp (s : State) :
    runEffect .jmp .absolute s = andThen (readWord (s.pc + 1) s) fun w => execJmp w s := by
  show andThen (andThen (readWord (s.pc + 1) s) _) _ = _
  cases readWord (s.pc + 1) s <;> rfl

/-- Everything a `tick` of this hardware can do, in the order of its checks (R82, R120). -/
theorem step_eq (s : State) :
    step s = match s.power with
      | .off => raise .notPowerOn
      | .on => andThen (readByte s.pc s) fun b0 =>
          if b0 = 0x78 then execSei s
          else if b0 = 0x4C then andThen (readWord (s.pc + 1) s) fun w => execJmp w s
          else raise (.unsupportedOperation b0) := by
  rw [step, tick, tickWith]
  cases s.power with
  | off => rfl
  | on =>
    show andThen _ _ = andThen _ _
    congr 1
    funext b0
    show (match lookup b0 with | none => _ | some e => _) = _
    rw [lookup_eq]
    by_cases h78 : b0 = 0x78
    · rw [if_pos h78, if_pos h78]; exact runEffect_sei s
    · rw [if_neg h78, if_neg h78]
      by_cases h4C : b0 = 0x4C
      · rw [if_pos h4C, if_pos h4C]; exact runEffect_jmp s
      · rw [if_neg h4C, if_neg h4C]

/-- A step that answers a next state ran `SEI` or `JMP`, powered on. -/
theorem step_next_cases {s t : State} (h : step s = .next t) :
    s.power = .on ∧
      ((readByte s.pc s = .next 0x78 ∧ execSei s = .next t) ∨
       (∃ w, readByte s.pc s = .next 0x4C ∧ readWord (s.pc + 1) s = .next w ∧ execJmp w s = .next t)) := by
  rw [step_eq] at h
  cases hp : s.power with
  | off => rw [hp] at h; cases h
  | on =>
    rw [hp] at h
    obtain ⟨b0, hb, h⟩ := andThen_eq_next.1 h
    refine ⟨rfl, ?_⟩
    split at h
    · exact .inl ⟨by simp_all, h⟩
    · split at h
      · obtain ⟨w, hw, h⟩ := andThen_eq_next.1 h
        exact .inr ⟨w, by simp_all, hw, h⟩
      · cases h

end Sys2Proof.Machine
end

