-- ==== Sys2Proof/Tests/Slice0.lean ====
section
/-! SUPPORT. Tests on fixed values, each with its vector of spec/95_test_vectors.md (V, S) or its rule; the checks of WellFormed on
ill-formed terms; and, for each obligation with hypotheses, states and operands that meet them (`witness_…`). -/

namespace Sys2Proof.Tests

open Sys2Proof Sys2Proof.Machine

/-- The value of an outcome. -/
def valueOf {α : Type} : Result α → Option α
  | .next a => some a
  | .fault _ => none
  | .refused _ => none

/-- The fault of an outcome. -/
def faultOf {α : Type} : Result α → Option Fault
  | .next _ => none
  | .fault f => some f
  | .refused _ => none

/-- The number an `InvalidRomSize` reports; its text is not looked at (U8). -/
def romSizeOf : Result State → Option Nat
  | .fault (.invalidRomSize _ n) => some n
  | _ => none

def rom16 (cells : List Host.Cell) : Memory := { size := 16384, cells := cells }
def rom32 (cells : List Host.Cell) : Memory := { size := 32768, cells := cells }
def imageOf (m : Memory) : CartridgeImage := { storageSize := m.size, storageBytes := m, trainerPresent := false }

/-- Powered on with a storage, at a `pc`, flags clear. -/
def onAt (m : Memory) (pc : Word) : State :=
  { pc := pc, p := Status.clear, bus := some { rom := m }, power := .on, cart := some (imageOf m) }

def allButI : Status := { c := true, z := true, i := false, d := true, b := true, v := true, n := true }

/-! ### Decoding, from the bit strings of the opcode table: 01111000 and 01001100 llllllll hhhhhhhh -/

theorem test_decode_sei : decode [0b01111000] = .ok (.sei, []) := rfl
theorem test_decode_jmp : decode [0b01001100, 0b00000000, 0b10010000] = .ok (.jmp 0x9000, []) := rfl
theorem test_decode_illegal : decode [0xFF] = .error (.unsupportedOperation 0xFF) := rfl
theorem test_decode_truncated : decode [0x4C, 0x00] = .error .truncated := rfl
theorem test_encode_jmp : encode (.jmp 0x9000) = [0x4C, 0x00, 0x90] := by decide
theorem test_table_word_sei : decodeTableWord 8 0x78 = some .sei := by decide
theorem test_table_word_jmp : decodeTableWord 24 0x90004C = some (.jmp 0x9000) := by decide
theorem test_table_word_jmp_opcode_only : decodeTableWord 8 0x4C = some (.jmp 0x0000) := by decide

/-- P3 (30_encoding.md R59): `.org $8000`, `JMP $1234`, `.org $FFFC`, `.word $8000`. -/
theorem test_assemble_p3 :
    assemble 0 [.org 0x8000, .jmp (.address 0x1234), .org 0xFFFC, .word 0x8000] =
      some [(0x8000, 0x4C), (0x8001, 0x34), (0x8002, 0x12), (0xFFFC, 0x00), (0xFFFD, 0x80)] := by decide
/-- P3's text. -/
theorem test_assembler_text : (AsmLine.jmp (.address 0x1234)).text = "JMP $1234" := rfl

/-! ### WellFormed refuses -/

theorem test_entry_mode_not_wired :
    TableEntry.wellFormed { opcode := 0x4C, mnemonic := .jmp, mode := .implied } = false := by decide
theorem test_table_mode_not_wired :
    ¬ tableWellFormed [{ opcode := 0x78, mnemonic := .sei, mode := .absolute }] := by decide
theorem test_table_duplicate_opcode :
    ¬ tableWellFormed [{ opcode := 0x78, mnemonic := .sei, mode := .implied },
      { opcode := 0x78, mnemonic := .jmp, mode := .absolute }] := by decide
theorem test_sei_rejects_absolute : Mnemonic.accepts .sei .absolute = false := by decide
theorem test_instructions_well_formed (i : Instr) : i.wellFormed = true := by cases i <;> rfl
theorem test_memory_out_of_order : ¬ (rom16 [(5, 1), (3, 1)]).wf := by decide
theorem test_memory_lists_unlisted_byte : ¬ (rom16 [(5, 0)]).wf := by decide
theorem test_memory_offset_too_large : ¬ (rom16 [(16384, 1)]).wf := by decide

/-! ### The bus -/

/-- As V32: a word at 0xBFFF of a 16 KiB image takes its high byte from offset 0. -/
theorem test_word_wraps_16k : valueOf (readWord 0xBFFF (onAt (rom16 [(0, 0x11), (0x3FFF, 0x44)]) 0)) = some 0x1144 := by decide
/-- V36. -/
theorem test_word_straddles_32k :
    valueOf (readWord 0xBFFF (onAt (rom32 [(0x3FFF, 0x44), (0x4000, 0x45)]) 0)) = some 0x4544 := by decide
/-- V30. -/
theorem test_read_below_window : faultOf (readByte 0x7FFF (onAt (rom16 []) 0)) = some (.invalidAddress 0x7FFF) := by decide
/-- V40, V41. -/
theorem test_word_faults :
    faultOf (readWord 0x7FFF (onAt (rom16 []) 0)) = some (.invalidAddress 0x7FFF) ∧
    faultOf (readWord 0xFFFF (onAt (rom16 []) 0)) = some (.invalidAddress 0x0000) := by decide

/-! ### The instructions -/

/-- V52: all flags but `I` set, `SEI` sets it too and clears none; `P_byte` is 0xDF. -/
theorem test_sei_keeps_other_flags :
    (valueOf (step { onAt (rom32 [(0x0010, 0x78)]) 0x8010 with p := allButI })).map (fun t => (t.pc, t.pByte)) =
      some (0x8011, 0xDF) := by decide
/-- V53: `pc` wraps, no operand is read. -/
theorem test_sei_wraps :
    (valueOf (step (onAt (rom32 [(0x7FFF, 0x78)]) 0xFFFF))).map (fun t => (t.pc, t.pByte)) = some (0x0000, 0x04) := by decide
/-- V66: low byte first. -/
theorem test_jmp_byte_order :
    (valueOf (step (onAt (rom32 [(0, 0x4C), (1, 0x90)]) 0x8000))).map (fun t => (t.pc, t.pByte)) = some (0x0090, 0x00) := by
  decide
/-- V67: the operand straddles the mirror seam. -/
theorem test_jmp_operand_over_seam :
    (valueOf (step (onAt (rom16 [(0, 0x80), (0x3FFE, 0x4C), (0x3FFF, 0x10)]) 0xBFFE))).map State.pc = some 0x8010 := by decide
/-- V68, V69. -/
theorem test_jmp_operand_past_top :
    faultOf (step (onAt (rom32 [(0x7FFE, 0x4C)]) 0xFFFE)) = some (.invalidAddress 0x0000) ∧
    faultOf (step (onAt (rom32 [(0x7FFF, 0x4C)]) 0xFFFF)) = some (.invalidAddress 0x0000) := by decide
/-- V85: an illegal opcode at the top reads no operand. -/
theorem test_illegal_at_top :
    faultOf (step (onAt (rom32 [(0x7FFF, 0xFF)]) 0xFFFF)) = some (.unsupportedOperation 0xFF) := by decide
/-- V83. -/
theorem test_power_test_first :
    faultOf (step { onAt (rom32 []) 0x1234 with power := .off }) = some .notPowerOn := by decide

/-! ### The resolver -/

/-- V102, V107, V111, V113. -/
theorem test_resolver_modes :
    faultOf (resolve .zeroPage 0x8000 (onAt (rom32 [(1, 0x10)]) 0x8000)) = some (.invalidAddress 0x0010) ∧
    valueOf (resolve .relative 0x8000 (onAt (rom32 [(1, 0x80)]) 0x8000)) = some (.disp 0xFF80, 1) ∧
    valueOf (resolve .absoluteX 0x8000 (onAt (rom32 [(2, 0x90)]) 0x8000)) = some (.indexedBase 0x9000, 2) ∧
    valueOf (resolve .absolute 0x8000 (onAt (rom32 [(2, 0x90)]) 0x8000)) = some (.addr16 0x9000, 2) := by decide
/-- V122, V127. -/
theorem test_relative_target : relTarget 0x8000 (sext16 0x80) = 0x7F82 ∧ relTarget 0xFFF0 (sext16 0x7F) = 0x0071 := by decide

/-! ### The console -/

/-- V44: the vector of a 16 KiB image is read through the mirror. -/
theorem test_insert_reads_mirrored_vector :
    (valueOf (insertCartridge (imageOf (rom16 [(0x3FFC, 0x10), (0x3FFD, 0x80)])) "" State.reset)).map
      (fun t => (t.pc, t.power, t.pByte)) = some (0x8010, .off, 0x00) := by decide
/-- V45: an insertion while `On` clears `I`, stays `On` and does not check the vector. -/
theorem test_insert_while_on :
    (valueOf (insertCartridge (imageOf (rom32 [(0x7FFC, 0x34), (0x7FFD, 0x12)])) ""
      { onAt (rom32 []) 0x9001 with p := { Status.clear with i := true } })).map
      (fun t => (t.pc, t.power, t.pByte)) = some (0x1234, .on, 0x00) := by decide
/-- V6. -/
theorem test_insert_bad_size : romSizeOf (insertCartridge (imageOf { size := 16383, cells := [] }) "" State.reset) = some 16383 := by
  decide
/-- V91, V94. -/
theorem test_power_on :
    faultOf (powerOn State.reset) = some .noRomInserted ∧
    valueOf (powerOn (onAt (rom32 []) 0x8011)) = some (onAt (rom32 []) 0x8011) := by decide
/-- P6, steps 1 to 3 and 4: refused operations change nothing and do not end a run, a faulting tick does. -/
theorem test_run_ends_at_tick :
    run [.powerOn, .insertCartridge (imageOf { size := 8192, cells := [] }) "", .tick, .powerOn] State.reset =
      .ended State.reset .notPowerOn := by decide

/-! ### How a program comes to run (log entries 1 and 9) -/

theorem test_first_step_after_reset :
    (valueOf (step (State.reset.withFetchWord 8 0x78))).map State.pc = some 0x8001 ∧
    (valueOf (step (State.reset.withFetchWord 24 0x90004C))).map State.pc = some 0x9000 ∧
    faultOf (step State.reset) = some .notPowerOn := by decide

/-! ### Witnesses: states and operands that meet each obligation's hypotheses -/

/-- `SEI` at 0x8000, powered on. -/
def seiState : State := State.reset.withFetchWord 8 0x78
/-- `JMP $9000` at 0x8000, powered on. -/
def jmpState : State := State.reset.withFetchWord 24 0x90004C
/-- 16384 zero bytes. -/
def zeros : List Byte := List.replicate 16384 0

theorem zeros_legal : zeros.length ∈ Config.storageSizes := by
  rw [zeros, List.length_replicate]; decide

theorem witness_EncodeDecodeAgree : decode [0x4C, 0x00, 0x90, 0xAA] = .ok (.jmp 0x9000, [0xAA]) := rfl

/-- Both clauses of the tick: an illegal byte, fetched while `On`. -/
theorem witness_IllegalOpcodesAreRejected :
    ∃ s b0, s.power = .on ∧ readByte s.pc s = .next b0 ∧ b0 ≠ 0x78 ∧ b0 ≠ 0x4C :=
  ⟨onAt (rom32 [(0, 0xEA)]) 0x8000, 0xEA, rfl, rfl, by decide, by decide⟩

theorem witness_UpdateProcessorStatusChangesOneFlag :
    Flag.carry ≠ Flag.zero ∧ State.reset.p.get .carry = false := by decide

theorem witness_PrimitivesAreTheOnlyChanges :
    (∃ t, runEffect .sei .implied seiState = .next t) ∧ (∃ t, runEffect .jmp .absolute jmpState = .next t) ∧
    (∃ t, cpuReset seiState = .next t) := ⟨⟨_, rfl⟩, ⟨_, rfl⟩, ⟨_, rfl⟩⟩

theorem witness_PackedStatusHoldsEachFlag : ∃ s t : State, s.pByte = t.pByte := ⟨State.reset, State.reset, rfl⟩

/-- Both clauses, at the two addresses where they meet. -/
theorem witness_ReadByteAnswersStorageByte :
    ∃ s : State, zeros.length ∈ Config.storageSizes ∧ s.bus = some { rom := Memory.ofList zeros } ∧
      (0x7FFF : Word).toNat < 0x8000 ∧ 0x8000 ≤ (0x8000 : Word).toNat :=
  ⟨{ State.reset with bus := some { rom := Memory.ofList zeros } }, zeros_legal, rfl, by decide, by decide⟩

/-- Each size, at the ends of both halves of the window. -/
theorem witness_MirroringFollowsImageSize :
    (∃ (s : State) (bus : MemoryBus), s.bus = some bus ∧ bus.romSize = 32768 ∧ 0x8000 ≤ (0xFFFF : Word).toNat) ∧
    (∃ (s : State) (bus : MemoryBus), s.bus = some bus ∧ bus.romSize = 16384 ∧ 0x8000 ≤ (0xBFFF : Word).toNat ∧ (0xBFFF : Word).toNat ≤ 0xBFFF) ∧
    (∃ (s : State) (bus : MemoryBus), s.bus = some bus ∧ bus.romSize = 16384 ∧ 0x8000 ≤ (0xC000 : Word).toNat ∧ 0xC000 ≤ (0xC000 : Word).toNat) :=
  ⟨⟨onAt (rom32 []) 0, _, rfl, rfl, by decide⟩, ⟨onAt (rom16 []) 0, _, rfl, rfl, by decide, by decide⟩,
    ⟨onAt (rom16 []) 0, _, rfl, rfl, by decide, by decide⟩⟩

theorem witness_ReadWordIsLittleEndian :
    (onAt (rom16 []) 0).bus ≠ none ∧ 0x8000 ≤ (0xFFFE : Word).toNat ∧ (0xFFFE : Word).toNat ≤ 0xFFFE ∧
    (0x7FFF : Word).toNat < 0x8000 := by decide

theorem witness_MemoryRepresentsByteSequences : (rom16 [(3, 1), (5, 2)]).wf := by decide

/-- Each clause: both operand bytes read, the first unreadable, the second unreadable, and a `pc` in the window with a bus. -/
theorem witness_ResolverReadsOperandBytes :
    readByte (0x8000 + 1) jmpState = .next 0x00 ∧ readByte (0x8000 + 2) jmpState = .next 0x90 ∧
    readByte (0xFFFF + 1) jmpState = .fault (.invalidAddress 0x0000) ∧
    readByte (0xFFFE + 1) jmpState = .next 0x00 ∧ readByte (0xFFFE + 2) jmpState = .fault (.invalidAddress 0x0000) ∧
    0x8000 ≤ (0xFFFF : Word).toNat ∧ jmpState.bus ≠ none :=
  ⟨rfl, rfl, rfl, rfl, rfl, by decide, by decide⟩

theorem witness_LatentModesInventNoState :
    readByte (0x8000 + 1) jmpState = .next 0x00 ∧ readWord (0x8000 + 1) jmpState = .next 0x9000 := ⟨rfl, rfl⟩

/-- Each clause: the first operand byte unreadable, the second unreadable, and both addresses of the last clause with a bus. -/
theorem witness_LatentModesFaultOnUnreadableOperands :
    readByte (0xFFFF + 1) jmpState = .fault (.invalidAddress 0x0000) ∧
    readByte (0xFFFE + 1) jmpState = .next 0x00 ∧ readByte (0xFFFE + 2) jmpState = .fault (.invalidAddress 0x0000) ∧
    0x8000 ≤ (0xFFFE : Word).toNat ∧ 0x8000 ≤ (0xFFFF : Word).toNat ∧ jmpState.bus ≠ none :=
  ⟨rfl, rfl, rfl, by decide, by decide, by decide⟩

theorem witness_ResolverReportsFormAndCount :
    resolve .absolute 0x8000 jmpState = .next (.addr16 0x9000, 2) ∧ resolve .implied 0x8000 State.reset = .next (.noOperand, 0) :=
  ⟨rfl, rfl⟩

theorem witness_WellFormedTableNeverFaultsOnMode : tableWellFormed instructionTable := by decide

theorem witness_SeiTicks :
    seiState.power = .on ∧ readByte seiState.pc seiState = .next 0x78 ∧ Mode.absolute ≠ .implied :=
  ⟨rfl, rfl, by decide⟩

/-- Both clauses, at the two addresses where they meet and at the top. -/
theorem witness_JmpTicks :
    (∃ s : State, s.power = .on ∧ readByte s.pc s = .next 0x4C ∧ s.pc.toNat = 0xFFFD) ∧
    (∃ s : State, s.power = .on ∧ readByte s.pc s = .next 0x4C ∧ s.pc = 0xFFFE) ∧
    (∃ s : State, s.power = .on ∧ readByte s.pc s = .next 0x4C ∧ s.pc = 0xFFFF) ∧ Mode.implied ≠ .absolute :=
  ⟨⟨onAt (rom32 [(0x7FFD, 0x4C)]) 0xFFFD, rfl, rfl, by decide⟩, ⟨onAt (rom32 [(0x7FFE, 0x4C)]) 0xFFFE, rfl, rfl, rfl⟩,
    ⟨onAt (rom32 [(0x7FFF, 0x4C)]) 0xFFFF, rfl, rfl, rfl⟩, by decide⟩

theorem witness_InstructionFrame :
    (∃ t, exec .sei seiState = .next t) ∧ (∃ t, exec (.jmp 0x9000) jmpState = .next t) := ⟨⟨_, rfl⟩, ⟨_, rfl⟩⟩

/-- Both clauses: the three bytes of a `JMP`, and an illegal byte. -/
theorem witness_StepRunsDecodedInstruction :
    (jmpState.power = .on ∧ decode [0x4C, 0x00, 0x90] = .ok (.jmp 0x9000, []) ∧
      ∀ (k : Nat) (b : Byte), [(0x4C : Byte), 0x00, 0x90][k]? = some b →
        readByte (jmpState.pc + BitVec.ofNat 16 k) jmpState = .next b) ∧
    (∃ s : State, s.power = .on ∧ decode [0xFF] = .error (.unsupportedOperation 0xFF) ∧
      ∀ (k : Nat) (b : Byte), [(0xFF : Byte)][k]? = some b → readByte (s.pc + BitVec.ofNat 16 k) s = .next b) := by
  refine ⟨⟨rfl, rfl, fun k b h => ?_⟩, onAt (rom32 [(0, 0xFF)]) 0x8000, rfl, rfl, fun k b h => ?_⟩
  · match k, h with
    | 0, h => cases h; rfl
    | 1, h => cases h; rfl
    | 2, h => cases h; rfl
    | k + 3, h => cases h
  · match k, h with
    | 0, h => cases h; rfl
    | k + 1, h => cases h

theorem witness_NotPowerOnExactlyWhenOff : State.reset.power = .off := rfl

theorem witness_UnsupportedOperationExactly : ∃ s : State, step s = .fault (.unsupportedOperation 0xEA) :=
  ⟨onAt (rom32 [(0, 0xEA)]) 0x8000, rfl⟩

theorem witness_TickOutcomesWhileOn : seiState.Inv ∧ seiState.power = .on := by decide

theorem witness_StepFrame : (∃ t, step seiState = .next t) ∧ (∃ t, step jmpState = .next t) := ⟨⟨_, rfl⟩, ⟨_, rfl⟩⟩

/-- Two states that agree on what is fetched and differ in flags, image size and cartridge. -/
theorem witness_TickDependsOnlyOnFetchedBytes :
    ∃ s s' : State, s ≠ s' ∧ s.power = s'.power ∧ s.pc = s'.pc ∧ readByte s.pc s = readByte s'.pc s' ∧
      readByte (s.pc + 1) s = readByte (s'.pc + 1) s' ∧ readByte (s.pc + 2) s = readByte (s'.pc + 2) s' ∧
      ∃ t, step s = .next t :=
  ⟨onAt (rom32 [(0, 0x4C), (2, 0x90)]) 0x8000, { onAt (rom16 [(0, 0x4C), (2, 0x90)]) 0x8000 with p := allButI },
    by decide, rfl, rfl, rfl, rfl, rfl, _, rfl⟩

theorem witness_SeiAtTopWrapsThenFaults :
    ∃ s : State, s.power = .on ∧ s.pc = 0xFFFF ∧ readByte s.pc s = .next 0x78 :=
  ⟨onAt (rom32 [(0x7FFF, 0x78)]) 0xFFFF, rfl, rfl, rfl⟩

/-- `JMP $8000` at 0x8000 (V61). -/
theorem witness_SelfJumpRunsForever :
    ∃ s : State, s.power = .on ∧ readByte s.pc s = .next 0x4C ∧ readByte (s.pc + 1) s = .next 0x00 ∧
      readByte (s.pc + 2) s = .next 0x80 ∧ s.pc.toNat = (0x00 : Byte).toNat + 256 * (0x80 : Byte).toNat :=
  ⟨onAt (rom32 [(0, 0x4C), (2, 0x80)]) 0x8000, rfl, rfl, rfl, rfl, by decide⟩

/-- Each clause: an `SEI` at the top of the lower copy, a `JMP` at its highest readable address, an illegal byte at the bottom. -/
theorem witness_MirroredCopiesRunAlike :
    (∃ (s : State) (bus : MemoryBus), s.bus = some bus ∧ bus.romSize = 16384 ∧ s.power = .on ∧ 0x8000 ≤ s.pc.toNat ∧ s.pc.toNat ≤ 0xBFFF ∧
      readByte s.pc s = .next 0x78) ∧
    (∃ (s : State) (bus : MemoryBus), s.bus = some bus ∧ bus.romSize = 16384 ∧ s.power = .on ∧ 0x8000 ≤ s.pc.toNat ∧ s.pc.toNat ≤ 0xBFFD ∧
      readByte s.pc s = .next 0x4C) ∧
    (∃ (s : State) (bus : MemoryBus), s.bus = some bus ∧ bus.romSize = 16384 ∧ s.power = .on ∧ 0x8000 ≤ s.pc.toNat ∧ s.pc.toNat ≤ 0xBFFF ∧
      step s = .fault (.unsupportedOperation 0x00)) :=
  ⟨⟨onAt (rom16 [(0x3FFF, 0x78)]) 0xBFFF, _, rfl, rfl, rfl, by decide, by decide, rfl⟩,
    ⟨onAt (rom16 [(0x3FFD, 0x4C)]) 0xBFFD, _, rfl, rfl, rfl, by decide, by decide, rfl⟩,
    ⟨onAt (rom16 []) 0x8000, _, rfl, rfl, rfl, by decide, by decide, rfl⟩⟩

theorem witness_InsertCartridgeLoadsAndResets : zeros.length ∈ Config.storageSizes := zeros_legal

theorem witness_InsertCartridgeRejectsOtherSizes : ([] : List Byte).length ≠ 16384 ∧ ([] : List Byte).length ≠ 32768 := by decide

/-- Each of the three cases. -/
theorem witness_PowerOnNeedsCartridge :
    seiState.power = .on ∧ (State.reset.power = .off ∧ State.reset.cart = none) ∧
    (∃ s : State, s.power = .off ∧ s.cart ≠ none) :=
  ⟨rfl, ⟨rfl, rfl⟩, setPower .off seiState, rfl, by decide⟩

theorem witness_PowerAndCartridgeAreNeverLost : seiState.power = .on ∧ seiState.cart ≠ none ∧ seiState.bus ≠ none := by decide

/-- Each clause: an insertion that clears `I` and reloads, a power-on that changes `power`. -/
theorem witness_OnlyInsertionClearsOrReloads :
    (∃ op s t, operate op s = .next t ∧ s.p.i = true ∧ t.p.i = false) ∧
    (∃ op s t, operate op s = .next t ∧ (t.bus ≠ s.bus ∨ t.cart ≠ s.cart)) ∧
    (∃ op s t, operate op s = .next t ∧ t.power ≠ s.power) :=
  ⟨⟨.insertCartridge (imageOf (rom16 [])) "", { seiState with p := { Status.clear with i := true } }, _, rfl, rfl, rfl⟩,
    ⟨.insertCartridge (imageOf (rom16 [])) "", State.reset, _, rfl, .inl (by decide)⟩,
    ⟨.powerOn, setPower .off seiState, _, rfl, by decide⟩⟩

theorem witness_TrainerFlagHasNoEffect :
    (∃ t, step seiState = .next t) ∧ (∃ t, powerOn seiState = .next t) ∧
    (∃ t, insertCartridge (imageOf (rom16 [])) "" seiState = .next t) := ⟨⟨_, rfl⟩, ⟨_, rfl⟩, ⟨_, rfl⟩⟩

theorem witness_StepKeepsInvariant :
    (seiState.Inv ∧ ∃ t, step seiState = .next t) ∧ (jmpState.Inv ∧ ∃ t, step jmpState = .next t) :=
  ⟨⟨by decide, _, rfl⟩, ⟨by decide, _, rfl⟩⟩

theorem witness_HostOperationsKeepInvariant :
    HostOp.wf (.insertCartridge (imageOf (rom16 [(3, 1)])) "") ∧ State.reset.Inv :=
  ⟨by show Memory.wf _; decide, by decide⟩

/-- `JMP $9000` at 0x8000 as a host sees it: a 32 KiB image with the vector 0x8000. -/
def jmpImage : CartridgeImage := imageOf (rom32 [(0, 0x4C), (2, 0x90), (0x7FFD, 0x80)])

/-- Reached through all three operations: an insertion, a power-on and a successful tick; the state is `On`, with `pc` from the `JMP`. -/
theorem witness_ReachableStatesMeetInvariant :
    ∃ s : State, Reachable s ∧ s.power = .on ∧ s.pc = 0x9000 ∧ s.cart = some jmpImage :=
  ⟨_, .operation .tick (.operation .powerOn
    (.operation (.insertCartridge jmpImage "") .construction (by show Memory.wf _; decide)) trivial) trivial, rfl, rfl, rfl⟩

/-- A state with no bus and one with a bus, a `pc` out of the window and one at the highest address with room, and a placed word that
decodes. -/
theorem witness_FetchWordRunsItsInstruction :
    State.reset.Inv ∧ decodeTableWord 24 0x90004C = some (.jmp 0x9000) ∧
    (onAt (rom16 []) 0xFFFD).Inv ∧ (onAt (rom16 []) 0xFFFD).bus = some { rom := rom16 [] } ∧
    0x8000 ≤ (onAt (rom16 []) 0xFFFD).pc.toNat ∧ (onAt (rom16 []) 0xFFFD).pc.toNat ≤ 0xFFFD := by decide

end Sys2Proof.Tests
end

/-! The two primitives of the state (10_state.md R17, R18), the state at construction (R22), and that effects and the reset routine
change the state by the two primitives alone. -/

namespace Sys2Proof.Machine

/-! ### Flags -/

@[simp] theorem Status.get_clear (flag : Flag) : Status.clear.get flag = false := by
  cases flag <;> rfl

@[simp] theorem Status.set_get_self (p : Status) (flag : Flag) : p.set flag (p.get flag) = p := by
  cases flag <;> rfl

/-- Setting a flag to the value it has changes nothing (R17). -/
theorem updateProcessorStatus_of_get_eq {s : State} {flag : Flag} {enable : Bool} (h : s.p.get flag = enable) :
    updateProcessorStatus flag enable s = s := by
  subst h
  exact State.ext_fields rfl (Status.set_get_self s.p flag) rfl rfl rfl

/-! ### What an effect function and the reset routine can answer -/

/-- The wiring has two pairs (40_addressing_resolver.md R73). -/
theorem Mnemonic.accepts_cases {m : Mnemonic} {mode : Mode} (h : m.accepts mode = true) :
    (m = .sei ∧ mode = .implied) ∨ (m = .jmp ∧ mode = .absolute) := by
  revert h
  cases m <;> cases mode <;> decide

/-- An effect function that answers a state passed its mode guard (D7). -/
theorem accepts_of_runEffect_next {m : Mnemonic} {mode : Mode} {s t : State} (h : runEffect m mode s = .next t) :
    m.accepts mode = true := by
  by_contra hguard
  rw [runEffect, if_neg hguard] at h
  cases h

/-- An effect function that answers a state is `SEI`, which sets `I` and falls through, or `JMP`, which moves `pc` to its operand. -/
theorem runEffect_next_cases {m : Mnemonic} {mode : Mode} {s t : State} (h : runEffect m mode s = .next t) :
    (m = .sei ∧ mode = .implied ∧ t = fallThrough 0 (updateProcessorStatus .interruptDisable true s)) ∨
    (m = .jmp ∧ mode = .absolute ∧ ∃ w, readWord (s.pc + 1) s = .next w ∧ t = moveProgramCounter w s) := by
  obtain ⟨rfl, rfl⟩ | ⟨rfl, rfl⟩ := Mnemonic.accepts_cases (accepts_of_runEffect_next h)
  · rw [runEffect_sei, execSei] at h
    cases h
    exact .inl ⟨rfl, rfl, rfl⟩
  · rw [runEffect_jmp] at h
    obtain ⟨w, hw, h⟩ := andThen_eq_next.1 h
    cases h
    exact .inr ⟨rfl, rfl, w, hw, rfl⟩

/-- The reset routine that answers a state read the vector, moved `pc` there and cleared the flags (70_reset_and_hazards.md R142). -/
theorem cpuReset_eq_next {s t : State} :
    cpuReset s = .next t ↔
      ∃ v, readWord Config.resetVector s = .next v ∧ t = clearFlags (moveProgramCounter v s) := by
  simp only [cpuReset, andThen_eq_next, Host.Outcome.next.injEq, eq_comm (a := t)]

/-! ### The obligations -/

/-- Settles O10: the effects by the two answers of `runEffect_next_cases`, the reset routine by `cpuReset_eq_next`. -/
theorem primitivesAreTheOnlyChanges : Obligations.PrimitivesAreTheOnlyChanges := by
  refine ⟨fun v s => ⟨moveProgramCounter_pc s v, moveProgramCounter_p s v, moveProgramCounter_bus s v,
    moveProgramCounter_power s v, moveProgramCounter_cart s v⟩, fun m mode s t h => ?effect, fun s t h => ?reset, fun _ => rfl⟩
  case effect =>
    obtain ⟨-, -, rfl⟩ | ⟨-, -, w, -, rfl⟩ := runEffect_next_cases h
    · exact ⟨s.pc + BitVec.ofNat 16 (1 + 0), .inr ⟨.interruptDisable, true, rfl⟩⟩
    · exact ⟨w, .inl rfl⟩
  case reset =>
    obtain ⟨v, -, ht⟩ := cpuReset_eq_next.1 h
    exact ⟨v, ht⟩

/-- Settles O7: the state at construction field by field, its register clear. -/
theorem constructionStateIsAsGiven : Obligations.ConstructionStateIsAsGiven :=
  ⟨rfl, Status.get_clear, rfl, rfl, rfl⟩

/-- Settles O9: by the two rules of reading a flag after `Status.set`; every other field is kept by the update. -/
theorem updateProcessorStatusChangesOneFlag : Obligations.UpdateProcessorStatusChangesOneFlag := fun s flag enable =>
  ⟨Status.get_set_self s.p flag enable, fun _ hne => Status.get_set_ne s.p enable hne,
    updateProcessorStatus_pc s flag enable, updateProcessorStatus_bus s flag enable,
    updateProcessorStatus_power s flag enable, updateProcessorStatus_cart s flag enable,
    updateProcessorStatus_of_get_eq⟩

end Sys2Proof.Machine

/-! The byte read of the bus (20_memory.md): the byte of a listed storage (R33) and the mirroring of the storage over the window
(R32). -/

namespace Sys2Proof.Machine

/-! ### The bytes of a listed sequence -/

/-- Listed bytes read back at their own offsets; beyond the last one every offset is unlisted. -/
theorem lookupCell_cellsFrom (off : Nat) (bytes : List Byte) (k : Nat) :
    lookupCell (cellsFrom off bytes) (off + k) = bytes[k]?.getD Config.unlistedByte := by
  induction bytes generalizing off k with
  | nil => rfl
  | cons b rest ih =>
    rw [cellsFrom, lookupCell_consCell (cellsFrom_canonical (off + 1) rest)]
    cases k with
    | zero => simp
    | succ k =>
      have hshift : off + (k + 1) = off + 1 + k := by omega
      rw [if_neg (by omega), hshift, ih, List.getElem?_cons_succ]

@[simp] theorem Memory.read_ofList (bytes : List Byte) (k : Nat) :
    (Memory.ofList bytes).read k = bytes[k]?.getD Config.unlistedByte := by
  simpa only [Memory.read, Memory.ofList, Nat.zero_add] using lookupCell_cellsFrom 0 bytes k

/-! ### Byte reads on the two sides of the window's base -/

/-- A read below the window faults with its own address, with and without a storage (R33). -/
theorem readByte_below_window {a : Word} (h : a.toNat < 0x8000) (s : State) :
    readByte a s = .fault (.invalidAddress a) :=
  readByte_eq_fault.2 ⟨h, rfl⟩

/-- A read in the window answers the byte at the storage offset (R32, R33). -/
theorem readByte_in_window {a : Word} {s : State} {bus : MemoryBus} (hbus : s.bus = some bus) (h : 0x8000 ≤ a.toNat) :
    readByte a s = .next (bus.rom.read (storageOffset a bus.romSize)) :=
  readByte_eq_next.2 ⟨h, bus, hbus, rfl⟩

/-! ### The storage offsets of the two image sizes -/

/-- A 32 KiB image fills the window once. -/
theorem storageOffset_32k {a : Word} (h : 0x8000 ≤ a.toNat) : storageOffset a 32768 = a.toNat - 0x8000 := by
  have hlt := a.isLt
  rw [storageOffset_eq h, Nat.mod_eq_of_lt (by omega)]

/-- The first copy of a 16 KiB image. -/
theorem storageOffset_16k_lower {a : Word} (h : 0x8000 ≤ a.toNat) (hle : a.toNat ≤ 0xBFFF) :
    storageOffset a 16384 = a.toNat - 0x8000 := by
  rw [storageOffset_eq h, Nat.mod_eq_of_lt (by omega)]

/-- The second copy of a 16 KiB image. -/
theorem storageOffset_16k_upper {a : Word} (h : 0xC000 ≤ a.toNat) : storageOffset a 16384 = a.toNat - 0xC000 := by
  have hlt := a.isLt
  rw [storageOffset_eq (by omega)]
  omega

/-- An address of the lower half and its mirror in the upper half do not wrap. -/
theorem toNat_add_mirror {a : Word} (hle : a.toNat ≤ 0xBFFF) : (a + 0x4000).toNat = a.toNat + 0x4000 := by
  rw [BitVec.toNat_add, show (0x4000 : Word).toNat = 0x4000 from rfl, Nat.mod_eq_of_lt (by omega)]

/-- An address of the lower half and its mirror have one storage offset in a 16 KiB image. -/
theorem storageOffset_16k_mirror {a : Word} (h : 0x8000 ≤ a.toNat) (hle : a.toNat ≤ 0xBFFF) :
    storageOffset (a + 0x4000) 16384 = storageOffset a 16384 := by
  have hmirror := toNat_add_mirror hle
  rw [storageOffset_16k_upper (by omega), storageOffset_16k_lower h hle, hmirror]
  omega

/-- With a 16 KiB image an address of the lower half and its mirror read the same (R32). -/
theorem readByte_mirror {a : Word} {s : State} {bus : MemoryBus} (hbus : s.bus = some bus) (hsize : bus.romSize = 16384)
    (h : 0x8000 ≤ a.toNat) (hle : a.toNat ≤ 0xBFFF) : readByte (a + 0x4000) s = readByte a s := by
  have hmirror := toNat_add_mirror hle
  rw [readByte_in_window hbus h, readByte_in_window hbus (by omega), hsize, storageOffset_16k_mirror h hle]

/-! ### The obligations -/

/-- Settles O12: a window read is of the storage offset, which is below the size, and there the listed byte stands. -/
theorem readByteAnswersStorageByte : Obligations.ReadByteAnswersStorageByte := by
  intro bytes s a hsize hbus
  refine ⟨fun hbelow => readByte_below_window hbelow s, fun hwindow => ?_⟩
  have hpos : 0 < bytes.length := by
    have hsizes : ∀ n ∈ Config.storageSizes, 0 < n := by decide
    exact hsizes _ hsize
  have hbyte := List.getElem?_eq_getElem (Nat.mod_lt (a.toNat - 0x8000) hpos)
  refine ⟨_, hbyte, ?_⟩
  rw [readByte_in_window hbus hwindow, MemoryBus.romSize, Memory.ofList_size, storageOffset_eq hwindow,
    Memory.read_ofList, hbyte, Option.getD_some]

/-- Settles O13: the offsets by the formula of each size and half, the vector's by the formulas at its two addresses. -/
theorem mirroringFollowsImageSize : Obligations.MirroringFollowsImageSize := by
  intro s bus a hbus hwindow
  refine ⟨readByte_in_window hbus hwindow, fun hsize => ?full, fun hsize hle => ⟨?lower, readByte_mirror hbus hsize hwindow hle⟩,
    fun hsize hge => ?upper, fun hsize => ?vector16k, fun hsize => ?vector32k⟩ <;> rw [hsize]
  case full => exact storageOffset_32k hwindow
  case lower => exact storageOffset_16k_lower hwindow hle
  case upper => exact storageOffset_16k_upper hge
  case vector16k => exact ⟨storageOffset_16k_upper (by decide), storageOffset_16k_upper (by decide)⟩
  case vector32k => exact ⟨storageOffset_32k (by decide), storageOffset_32k (by decide)⟩

end Sys2Proof.Machine

/-! Illegal opcode bytes (30_encoding.md R56): the decoder and the tick reject a byte exactly because the dispatch table has no row for
it; the operand bytes of a row that is found are never the cause. -/

namespace Sys2Proof

/-- A byte without a row is one that is neither of the two opcodes (R54). -/
theorem lookup_eq_none {b0 : Byte} : lookup b0 = none ↔ b0 ≠ 0x78 ∧ b0 ≠ 0x4C := by
  refine ⟨fun h => ⟨?_, ?_⟩, fun h => lookup_other h.1 h.2⟩ <;> rintro rfl <;> cases h

/-- A row that is found may lack operand bytes or have an unwired mode; it is not an unsupported operation. -/
theorem decodeOperands_ne_unsupportedOperation (e : TableEntry) (rest : List Byte) (b : Byte) :
    decodeOperands e rest ≠ .error (.unsupportedOperation b) := by
  unfold decodeOperands
  split <;> nofun

/-- The decoder rejects a byte as an unsupported operation exactly when its lookup finds no row, whatever bytes follow. -/
theorem decode_eq_unsupportedOperation {b0 : Byte} {rest : List Byte} :
    decode (b0 :: rest) = .error (.unsupportedOperation b0) ↔ lookup b0 = none := by
  rw [decode]
  cases lookup b0 with
  | none => exact ⟨fun _ => rfl, fun _ => rfl⟩
  | some e => exact ⟨fun h => absurd h (decodeOperands_ne_unsupportedOperation e rest b0), nofun⟩

/-- Two bytes of any value after 0x4C are the target of a jump, low byte first (R51, R53). -/
theorem decode_jmp (lo hi : Byte) (rest : List Byte) :
    decode (0x4C :: lo :: hi :: rest) = .ok (.jmp (wordOf hi lo), rest) := rfl

end Sys2Proof

namespace Sys2Proof.Machine

/-- A tick that fetches an illegal byte faults with it (R82, R113). -/
theorem step_of_illegal_fetch {s : State} {b0 : Byte} (hon : s.power = .on) (hfetch : readByte s.pc s = .next b0)
    (h78 : b0 ≠ 0x78) (h4C : b0 ≠ 0x4C) : step s = .fault (.unsupportedOperation b0) := by
  simp only [step_eq, hon, hfetch, andThen_next, if_neg h78, if_neg h4C, raise]

/-- Settles O4: the decoder by the failed lookup, the tick by its last check (a fault answers no state), the operand bytes by
`decode_jmp`. -/
theorem illegalOpcodesAreRejected : Obligations.IllegalOpcodesAreRejected := by
  refine ⟨fun b0 rest => ?decoder, fun s b0 hon hfetch h78 h4C => ?tick, fun lo hi rest => ⟨wordOf hi lo, decode_jmp lo hi rest⟩⟩
  case decoder => exact decode_eq_unsupportedOperation.trans lookup_eq_none
  case tick =>
    have hfault := step_of_illegal_fetch hon hfetch h78 h4C
    exact ⟨hfault, by rw [hfault, stateAfter_fault]⟩

end Sys2Proof.Machine

/-! The two faults that a `tick` raises of its own (60_exceptions.md): `NotPowerOn` (R116) and `UnsupportedOperation` (R113). Every
other fault of a tick is the fault of a read. -/

namespace Sys2Proof.Machine

/-- A word read faults when one of its two byte reads does, the low byte's first (20_memory.md R34, D5). -/
theorem readWord_eq_fault {a : Word} {s : State} {f : Fault} :
    readWord a s = .fault f ↔
      readByte a s = .fault f ∨ ∃ lo, readByte a s = .next lo ∧ readByte (a + 1) s = .fault f := by
  simp only [readWord, andThen_eq_fault, reduceCtorEq, and_false, exists_false, or_false]

/-- A word read raises `InvalidAddress` alone. -/
theorem readWord_fault_invalidAddress {a : Word} {s : State} {f : Fault} (h : readWord a s = .fault f) :
    ∃ address, f = .invalidAddress address := by
  obtain hlo | ⟨-, -, hhi⟩ := readWord_eq_fault.1 h
  · exact ⟨a, (readByte_eq_fault.1 hlo).2⟩
  · exact ⟨a + 1, (readByte_eq_fault.1 hhi).2⟩

/-- The power test comes first, so that nothing but the power matters to it (41_dispatch_and_effects.md R82). -/
theorem step_of_off {s : State} (hoff : s.power = .off) : step s = .fault .notPowerOn := by
  rw [step_eq, hoff, raise]

/-- Everything that makes a tick fault: the power is off, or the opcode fetch faults, or the operand read of a `JMP` does, or the
opcode byte is in no row. `SEI` never does (42_flag_instructions.md R95). -/
theorem step_fault_cases {s : State} {f : Fault} (h : step s = .fault f) :
    (s.power = .off ∧ f = .notPowerOn) ∨
    (s.power = .on ∧
      (readByte s.pc s = .fault f ∨
       (readByte s.pc s = .next 0x4C ∧ readWord (s.pc + 1) s = .fault f) ∨
       (∃ b0, readByte s.pc s = .next b0 ∧ b0 ≠ 0x78 ∧ b0 ≠ 0x4C ∧ f = .unsupportedOperation b0))) := by
  rw [step_eq] at h
  cases hpower : s.power with
  | off =>
    rw [hpower] at h
    cases h
    exact .inl ⟨rfl, rfl⟩
  | on =>
    rw [hpower] at h
    refine .inr ⟨rfl, ?_⟩
    obtain hfetch | ⟨b0, hfetch, h⟩ := andThen_eq_fault.1 h
    · exact .inl hfetch
    split_ifs at h with h78 h4C
    · cases h
    · obtain hoperand | ⟨w, -, hjmp⟩ := andThen_eq_fault.1 h
      · exact .inr (.inl ⟨h4C ▸ hfetch, hoperand⟩)
      · cases hjmp
    · cases h
      exact .inr (.inr ⟨b0, hfetch, h78, h4C, rfl⟩)

/-- A tick that faults while the power is on raises `InvalidAddress`, or `UnsupportedOperation` of the byte it fetched (R120). -/
theorem step_fault_cases_of_on {s : State} {f : Fault} (hon : s.power = .on) (h : step s = .fault f) :
    (∃ address, f = .invalidAddress address) ∨
    (∃ b0, readByte s.pc s = .next b0 ∧ b0 ≠ 0x78 ∧ b0 ≠ 0x4C ∧ f = .unsupportedOperation b0) := by
  obtain ⟨hoff, -⟩ | ⟨-, hfetch | ⟨-, hoperand⟩ | hillegal⟩ := step_fault_cases h
  · rw [hon] at hoff; cases hoff
  · exact .inl ⟨s.pc, (readByte_eq_fault.1 hfetch).2⟩
  · exact .inl (readWord_fault_invalidAddress hoperand)
  · exact .inr hillegal

/-- While the power is on no tick raises `NotPowerOn`. -/
theorem step_ne_notPowerOn_of_on {s : State} (hon : s.power = .on) : step s ≠ .fault .notPowerOn := by
  intro h
  obtain ⟨_, hf⟩ | ⟨_, -, -, -, hf⟩ := step_fault_cases_of_on hon h <;> cases hf

/-- A tick raises `UnsupportedOperation` of a byte exactly when it is on, fetches that byte and finds no row for it. -/
theorem step_eq_unsupportedOperation {s : State} {b : Byte} :
    step s = .fault (.unsupportedOperation b) ↔
      s.power = .on ∧ readByte s.pc s = .next b ∧ b ≠ 0x78 ∧ b ≠ 0x4C := by
  refine ⟨fun h => ?raised, fun ⟨hon, hfetch, h78, h4C⟩ => step_of_illegal_fetch hon hfetch h78 h4C⟩
  case raised =>
    cases hpower : s.power with
    | off => rw [step_of_off hpower] at h; cases h
    | on =>
      obtain ⟨_, hf⟩ | ⟨b0, hfetch, h78, h4C, hf⟩ := step_fault_cases_of_on hpower h <;> cases hf
      exact ⟨rfl, hfetch, h78, h4C⟩

/-- Settles O28: off by the power test, on by `step_ne_notPowerOn_of_on`; a fault answers no state. -/
theorem notPowerOnExactlyWhenOff : Obligations.NotPowerOnExactlyWhenOff := by
  refine fun s => ⟨⟨fun h => ?raised, step_of_off⟩, fun hoff => by rw [step_of_off hoff, stateAfter_fault]⟩
  case raised =>
    cases hpower : s.power with
    | off => rfl
    | on => exact absurd h (step_ne_notPowerOn_of_on hpower)

/-- Settles O29: the characterisation `step_eq_unsupportedOperation`; a fault answers no state. -/
theorem unsupportedOperationExactly : Obligations.UnsupportedOperationExactly :=
  fun s _ => ⟨step_eq_unsupportedOperation, fun h => by rw [h, stateAfter_fault]⟩

end Sys2Proof.Machine

/-! The decoder and the encoder (30_encoding.md): each instruction's bytes decode to it, and nothing else does. -/

namespace Sys2Proof

/-- 0x78 is a whole `SEI`; what follows it is left (R54, format F1). -/
theorem decode_sei (rest : List Byte) : decode (0x78 :: rest) = .ok (.sei, rest) := rfl

/-- A list that decodes is 0x78 and its rest, or 0x4C, two bytes and its rest (R54). -/
theorem decode_ok_cases {bytes : List Byte} {i : Instr} {rest : List Byte} (h : decode bytes = .ok (i, rest)) :
    (i = .sei ∧ bytes = 0x78 :: rest) ∨ (∃ lo hi, i = .jmp (wordOf hi lo) ∧ bytes = 0x4C :: lo :: hi :: rest) := by
  cases bytes with
  | nil => cases h
  | cons b0 operands =>
    by_cases h78 : b0 = 0x78
    · subst h78
      cases h
      exact .inl ⟨rfl, rfl⟩
    by_cases h4C : b0 = 0x4C
    · subst h4C
      match operands, h with
      | lo :: hi :: _, h => cases h; exact .inr ⟨lo, hi, rfl, rfl⟩
      | [_], h => cases h
      | [], h => cases h
    · rw [decode, lookup_other h78 h4C] at h
      cases h

/-- A list that the decoder rejects as an unsupported operation begins with that byte, which has no row. -/
theorem decode_unsupportedOperation_cases {bytes : List Byte} {b : Byte}
    (h : decode bytes = .error (.unsupportedOperation b)) : ∃ rest, bytes = b :: rest ∧ lookup b = none := by
  cases bytes with
  | nil => cases h
  | cons b0 rest =>
    rw [decode] at h
    cases hrow : lookup b0 with
    | none =>
      rw [hrow] at h
      cases h
      exact ⟨rest, rfl, hrow⟩
    | some e =>
      rw [hrow] at h
      exact absurd h (decodeOperands_ne_unsupportedOperation e rest b)

/-- Settles O1: by the instruction's form; a target is made of its two bytes. -/
theorem decodeEncodeAgree : Obligations.DecodeEncodeAgree := by
  intro i rest
  cases i with
  | sei => exact decode_sei rest
  | jmp target =>
    show decode (0x4C :: lowByte target :: highByte target :: rest) = _
    rw [decode_jmp, wordOf_highByte_lowByte]

/-- Settles O2: by the two forms of a list that decodes; the target's bytes are the ones it was made of. -/
theorem encodeDecodeAgree : Obligations.EncodeDecodeAgree := by
  intro bytes i rest h
  obtain ⟨rfl, rfl⟩ | ⟨lo, hi, rfl, rfl⟩ := decode_ok_cases h
  · rfl
  · rw [encode, lowByte_wordOf, highByte_wordOf]; rfl

/-- Settles O3: the rows by `lookup_eq`, the two tests in its order. -/
theorem dispatchTableHasTwoEntries : Obligations.DispatchTableHasTwoEntries := by
  refine ⟨fun b0 e => ?rows, by decide⟩
  case rows =>
    rw [lookup_eq]
    split_ifs with h78 h4C
    · simp [h78, eq_comm]
    · simp [h4C, eq_comm]
    · exact ⟨nofun, fun hrow => hrow.elim (fun h => absurd h.1 h78) (fun h => absurd h.1 h4C)⟩

/-- Settles O5: by the decoder's equations for the two opcodes and for a byte of no row. -/
theorem writtenOutBytesDecode : Obligations.WrittenOutBytesDecode :=
  ⟨decode_sei [], decode_jmp 0x00 0x90 [], decode_jmp 0x90 0x00 [], decode_eq_unsupportedOperation.2 rfl⟩

end Sys2Proof

/-! The assembler (30_encoding.md R59): addresses along a list of bytes, and the lines of a list of instructions. -/

namespace Sys2Proof.Machine

/-- Addresses go on after a first list of bytes where it ended. -/
theorem addressed_append (pos : Word) (xs ys : List Byte) :
    addressed pos (xs ++ ys) = addressed pos xs ++ addressed (pos + BitVec.ofNat 16 xs.length) ys := by
  induction xs generalizing pos with
  | nil => simp [addressed]
  | cons x xs ih =>
    have hpos : pos + 1 + BitVec.ofNat 16 xs.length = pos + BitVec.ofNat 16 (xs.length + 1) := by
      bv_omega
    simp only [List.cons_append, addressed, ih, hpos, List.length_cons]

/-- The line of an instruction places its encoding, whatever the labels. -/
@[simp] theorem AsmLine.bytes_ofInstr (labels : List (String × Word)) (i : Instr) :
    (AsmLine.ofInstr i).bytes labels = some (encode i) := by
  cases i <;> rfl

/-- The line of an instruction takes as many addresses as its encoding has bytes. -/
@[simp] theorem AsmLine.next_ofInstr (pos : Word) (i : Instr) :
    (AsmLine.ofInstr i).next pos = pos + BitVec.ofNat 16 (encode i).length := by
  cases i <;> rfl

/-- The lines of instructions define no label. -/
theorem asmLabels_ofInstr (pos : Word) (program : List Instr) : asmLabels pos (program.map AsmLine.ofInstr) = [] := by
  induction program generalizing pos with
  | nil => rfl
  | cons i program ih => cases i <;> exact ih _

/-- The lines of instructions place the encodings one after the other. -/
theorem asmPlace_ofInstr (labels : List (String × Word)) (pos : Word) (program : List Instr) :
    asmPlace labels pos (program.map AsmLine.ofInstr) = some (addressed pos (program.flatMap encode)) := by
  induction program generalizing pos with
  | nil => rfl
  | cons i program ih =>
    rw [List.map_cons, asmPlace, AsmLine.bytes_ofInstr, AsmLine.next_ofInstr, ih, List.flatMap_cons, addressed_append]

/-- A program of a label and a jump to it is a jump to the address of the label. -/
theorem assemble_label_jmp (start : Word) (name : String) :
    assemble start [.label name, .jmp (.label name)] = some (addressed start (encode (.jmp start))) := by
  have hlabel : (AsmTarget.label name).resolve [(name, start)] = some start := by simp [AsmTarget.resolve]
  simp [assemble, asmLabels, asmPlace, AsmLine.bytes, AsmLine.next, hlabel, addressed]

/-- Settles O6: instructions define no label and are placed one after the other. -/
theorem assemblyPlacesEncodings : Obligations.AssemblyPlacesEncodings := by
  refine ⟨fun start program => ?instructions, assemble_label_jmp⟩
  case instructions =>
    rw [assemble, asmLabels_ofInstr, asmPlace_ofInstr]
    exact if_pos List.nodup_nil

end Sys2Proof.Machine

/-! One step (41_dispatch_and_effects.md R82): the rule of each fetched opcode, what a step that answers a state did, and that it keeps
the frame and the invariant (10_state.md section 9). -/

namespace Sys2Proof.Machine

/-! ### The rule of each opcode fetched while `On` -/

/-- A tick while `On`, in the order of its checks. -/
theorem step_of_on {s : State} (hon : s.power = .on) :
    step s = andThen (readByte s.pc s) fun b0 =>
      if b0 = 0x78 then execSei s
      else if b0 = 0x4C then andThen (readWord (s.pc + 1) s) fun w => execJmp w s
      else raise (.unsupportedOperation b0) := by
  rw [step_eq, hon]

/-- The fault of the opcode fetch is the tick's. -/
theorem step_of_fetch_fault {s : State} {f : Fault} (hon : s.power = .on) (hfetch : readByte s.pc s = .fault f) :
    step s = .fault f := by
  rw [step_of_on hon, hfetch, andThen_fault]

/-- A tick that fetches `SEI` runs it. -/
theorem step_of_sei_fetch {s : State} (hon : s.power = .on) (hfetch : readByte s.pc s = .next 0x78) :
    step s = execSei s := by
  rw [step_of_on hon, hfetch, andThen_next, if_pos rfl]

/-- A tick that fetches `JMP` reads the operand word after the opcode and runs the jump. -/
theorem step_of_jmp_fetch {s : State} (hon : s.power = .on) (hfetch : readByte s.pc s = .next 0x4C) :
    step s = andThen (readWord (s.pc + 1) s) fun w => execJmp w s := by
  have hne : (0x4C : Byte) ≠ 0x78 := by decide
  rw [step_of_on hon, hfetch, andThen_next, if_neg hne, if_pos rfl]

/-- The state `SEI` answers: `I` is 1 and `pc` one further (42_flag_instructions.md R95). -/
theorem execSei_eq (s : State) : execSei s = .next { s with pc := s.pc + 1, p := { s.p with i := true } } := rfl

/-- The state `JMP` answers: `pc` is the target (43_control_transfer.md R100). -/
theorem execJmp_eq (target : Word) (s : State) : execJmp target s = .next { s with pc := target } := rfl

/-! ### What a step changes -/

/-- A step that answers a state set `I` and advanced `pc` by one, or moved `pc` to the word after the opcode. -/
theorem step_next_state {s t : State} (h : step s = .next t) :
    t = { s with pc := s.pc + 1, p := { s.p with i := true } } ∨
    ∃ w, readWord (s.pc + 1) s = .next w ∧ t = { s with pc := w } := by
  obtain ⟨-, ⟨-, hsei⟩ | ⟨w, -, hw, hjmp⟩⟩ := step_next_cases h
  · cases hsei
    exact .inl rfl
  · cases hjmp
    exact .inr ⟨w, hw, rfl⟩

/-- Storage, power and cartridge are the same in two states: what no instruction changes (10_state.md sections 2 to 4). -/
structure SameConsole (t s : State) : Prop where
  bus : t.bus = s.bus
  power : t.power = s.power
  cart : t.cart = s.cart

/-- A step leaves the console as it was. -/
theorem step_sameConsole {s t : State} (h : step s = .next t) : SameConsole t s := by
  obtain rfl | ⟨w, -, rfl⟩ := step_next_state h <;> exact ⟨rfl, rfl, rfl⟩

/-- An instruction leaves the console as it was. -/
theorem exec_sameConsole {i : Instr} {s t : State} (h : exec i s = .next t) : SameConsole t s := by
  cases i <;> cases h <;> exact ⟨rfl, rfl, rfl⟩

/-- A step leaves the flags or sets `I` alone. -/
theorem step_flags {s t : State} (h : step s = .next t) : t.p = s.p ∨ t.p = { s.p with i := true } := by
  obtain rfl | ⟨w, -, rfl⟩ := step_next_state h
  · exact .inr rfl
  · exact .inl rfl

/-! ### The invariant -/

/-- The invariant speaks of `pc` not at all, and of the flags in its last clause only. -/
theorem State.Inv.of_sameConsole {s t : State} (h : s.Inv) (hsame : SameConsole t s) (hflags : t.OnlyInterruptDisable) :
    t.Inv := by
  obtain ⟨hon, hmatch, hlegal, -⟩ := h
  obtain ⟨hbus, hpower, hcart⟩ := hsame
  refine ⟨?_, ?_, ?_, hflags⟩
  · rwa [State.OnHasCartridge, hpower, hcart]
  · rwa [State.BusMatchesCartridge, hbus, hcart]
  · rwa [State.StorageLegal, hbus]

/-- A register that differs at most in `I` from one with no flag but `I` has no flag but `I`. -/
theorem onlyInterruptDisable_of_flags {s t : State} (h : s.OnlyInterruptDisable)
    (hflags : t.p = s.p ∨ t.p = { s.p with i := true }) : t.OnlyInterruptDisable := by
  rw [State.OnlyInterruptDisable] at h ⊢
  obtain hp | hp := hflags <;> rw [hp, h]

/-- Settles O44: a step keeps the console, and of the flags it changes at most `I`. -/
theorem stepKeepsInvariant : Obligations.StepKeepsInvariant := fun _ _ hinv hstep =>
  have ⟨_, _, _, hflags⟩ := hinv
  hinv.of_sameConsole (step_sameConsole hstep) (onlyInterruptDisable_of_flags hflags (step_flags hstep))

/-! ### The instructions -/

/-- Settles O22: the state `SEI` answers. -/
theorem seiCompletes : Obligations.SeiCompletes := execSei_eq

/-- Settles O23: the state `JMP` answers. -/
theorem jmpCompletes : Obligations.JmpCompletes := execJmp_eq

/-- Settles O26: `exec` keeps the console, hence every read; the flags by the instruction's form. -/
theorem instructionFrame : Obligations.InstructionFrame := by
  intro i s t h
  obtain ⟨hbus, hpower, hcart⟩ := exec_sameConsole h
  refine ⟨fun flag hne => ?otherFlags, fun target hi => ?jmpFlags, hbus, hpower, hcart, readByte_congr hbus⟩
  case otherFlags =>
    cases i <;> cases h
    case sei => exact Status.get_set_ne s.p true hne
    case jmp => rfl
  case jmpFlags =>
    subst hi
    cases h
    rfl

/-- Settles O32: the flags and the console are framed by the step; `pc` by the two states it can answer. -/
theorem stepFrame : Obligations.StepFrame := by
  intro s t h
  obtain ⟨hbus, hpower, hcart⟩ := step_sameConsole h
  refine ⟨step_flags h, hbus, hpower, hcart, readByte_congr hbus, ?pc⟩
  case pc =>
    obtain rfl | ⟨w, hw, rfl⟩ := step_next_state h
    · exact .inl ⟨rfl, rfl⟩
    · exact .inr ⟨rfl, hw⟩

/-- Settles O27: the bytes that decode are the ones the tick fetches, by the two forms of such a list. -/
theorem stepRunsDecodedInstruction : Obligations.StepRunsDecodedInstruction := by
  intro s bytes hon hbytes
  have hfirst (b0 : Byte) (tail : List Byte) (h : bytes = b0 :: tail) : readByte s.pc s = .next b0 := by
    subst h
    simpa only [BitVec.add_zero] using hbytes 0 b0 rfl
  refine ⟨fun i rest hdecode => ?decoded, fun b0 hdecode => ?illegal⟩
  case decoded =>
    obtain ⟨rfl, rfl⟩ | ⟨lo, hi, rfl, rfl⟩ := decode_ok_cases hdecode
    · exact ⟨rfl, step_of_sei_fetch hon (hfirst _ _ rfl)⟩
    · have hoperand : readWord (s.pc + 1) s = .next (wordOf hi lo) := by
        refine readWord_eq_next.2 ⟨lo, hi, hbytes 1 lo rfl, ?_, rfl⟩
        rw [BitVec.add_assoc]
        exact hbytes 2 hi rfl
      exact ⟨rfl, by rw [step_of_jmp_fetch hon (hfirst _ _ rfl), hoperand]; rfl⟩
  case illegal =>
    obtain ⟨rest, hbytes0, hnone⟩ := decode_unsupportedOperation_cases hdecode
    obtain ⟨h78, h4C⟩ := lookup_eq_none.1 hnone
    exact step_of_illegal_fetch hon (hfirst b0 rest hbytes0) h78 h4C

end Sys2Proof.Machine

/-! Word reads (20_memory.md R34) and the operand bytes after an opcode in the window, whose addresses wrap past 0xFFFF (D4, D5). -/

namespace Sys2Proof.Machine

/-! ### Reads in the window -/

/-- With bus content every byte of the window is answered. -/
theorem readByte_answers {a : Word} {s : State} (hbus : s.bus ≠ none) (h : 0x8000 ≤ a.toNat) :
    ∃ b, readByte a s = .next b := by
  obtain ⟨bus, hsome⟩ := Option.ne_none_iff_exists'.1 hbus
  exact ⟨_, readByte_in_window hsome h⟩

/-- A byte that is answered stands in the window of a bus with content. -/
theorem window_of_readByte {a : Word} {s : State} {b : Byte} (h : readByte a s = .next b) :
    0x8000 ≤ a.toNat ∧ s.bus ≠ none := by
  obtain ⟨hwindow, bus, hbus, -⟩ := readByte_eq_next.1 h
  exact ⟨hwindow, by rw [hbus]; exact Option.some_ne_none bus⟩

/-- The word at an address of the window but the last is answered, and little-endian. -/
theorem readWord_answers {a : Word} {s : State} (hbus : s.bus ≠ none) (h : 0x8000 ≤ a.toNat) (hle : a.toNat ≤ 0xFFFE) :
    ∃ lo hi w, readByte a s = .next lo ∧ readByte (a + 1) s = .next hi ∧ readWord a s = .next w ∧
      w.toNat = lo.toNat + 256 * hi.toNat := by
  have hnext : 0x8000 ≤ (a + 1).toNat := by bv_omega
  obtain ⟨lo, hlo⟩ := readByte_answers hbus h
  obtain ⟨hi, hhi⟩ := readByte_answers hbus hnext
  exact ⟨lo, hi, wordOf hi lo, hlo, hhi, readWord_eq_next.2 ⟨lo, hi, hlo, hhi, rfl⟩, wordOf_toNat hi lo⟩

/-- Settles O14: in the window by `readWord_answers`; else the read of the low byte, or at the top that of the high byte, faults. -/
theorem readWordIsLittleEndian : Obligations.ReadWordIsLittleEndian := by
  refine fun s a hbus => ⟨readWord_answers hbus, fun hbelow => ?below, fun htop => ?top⟩
  case below => exact readWord_eq_fault.2 (.inl (readByte_below_window hbelow s))
  case top =>
    subst htop
    obtain ⟨lo, hlo⟩ := readByte_answers hbus (a := 0xFFFF) (by decide)
    exact readWord_eq_fault.2 (.inr ⟨lo, hlo, readByte_below_window (by decide) s⟩)

/-! ### The bytes after an opcode in the window -/

/-- The byte after the opcode faults only where its address wraps. -/
theorem readByte_after_eq_fault {pc : Word} {s : State} (hwindow : 0x8000 ≤ pc.toNat) (f : Fault) :
    readByte (pc + 1) s = .fault f ↔ pc = 0xFFFF ∧ f = .invalidAddress 0x0000 := by
  have hwraps : (pc + 1).toNat < Config.windowBase ↔ pc = 0xFFFF := by
    rw [Config.windowBase]
    bv_omega
  rw [readByte_eq_fault, hwraps]
  refine and_congr_right fun htop => ?_
  subst htop
  rfl

/-- The word after the opcode faults only where one of its two addresses wraps. -/
theorem readWord_after_eq_fault {pc : Word} {s : State} (hwindow : 0x8000 ≤ pc.toNat) (hbus : s.bus ≠ none) (f : Fault) :
    readWord (pc + 1) s = .fault f ↔ (pc = 0xFFFE ∨ pc = 0xFFFF) ∧ f = .invalidAddress 0x0000 := by
  rw [readWord_eq_fault, readByte_after_eq_fault hwindow]
  by_cases htop : pc = 0xFFFF
  · subst htop
    have hlo (lo : Byte) : readByte (0xFFFF + 1) s ≠ .next lo := by
      rw [(readByte_after_eq_fault hwindow _).2 ⟨rfl, rfl⟩]
      nofun
    simp only [hlo, false_and, exists_false, or_false, or_true]
  · have hnext : 0x8000 ≤ (pc + 1).toNat := by bv_omega
    have hwraps : pc + 1 = 0xFFFF ↔ pc = 0xFFFE := by bv_omega
    obtain ⟨lo, hlo⟩ := readByte_answers hbus hnext
    simp only [hlo, Host.Outcome.next.injEq, exists_eq_left', readByte_after_eq_fault hnext, hwraps, htop, false_and,
      false_or, or_false]

end Sys2Proof.Machine

/-! The addressing-mode resolver (40_addressing_resolver.md): what each mode answers and how it faults. -/

namespace Sys2Proof.Machine

/-- An operation whose value is only rewritten faults as before. -/
theorem andThen_value_eq_fault {α β : Type} {r : Result α} {g : α → β} {f : Fault} :
    (andThen r fun a => .next (g a)) = .fault f ↔ r = .fault f := by
  cases r <;> simp [andThen]

/-! ### Faults of the modes that go on with their operand bytes alone -/

theorem resolve_immediate_eq_fault {pc : Word} {s : State} {f : Fault} :
    resolve .immediate pc s = .fault f ↔ readByte (pc + 1) s = .fault f := andThen_value_eq_fault

theorem resolve_relative_eq_fault {pc : Word} {s : State} {f : Fault} :
    resolve .relative pc s = .fault f ↔ readByte (pc + 1) s = .fault f := andThen_value_eq_fault

theorem resolve_absolute_eq_fault {pc : Word} {s : State} {f : Fault} :
    resolve .absolute pc s = .fault f ↔ readWord (pc + 1) s = .fault f := andThen_value_eq_fault

theorem resolve_absoluteX_eq_fault {pc : Word} {s : State} {f : Fault} :
    resolve .absoluteX pc s = .fault f ↔ readWord (pc + 1) s = .fault f := andThen_value_eq_fault

/-- ZeroPage faults as the read of its operand byte does. -/
theorem resolve_zeroPage_of_fault {pc : Word} {s : State} {f : Fault} (h : readByte (pc + 1) s = .fault f) :
    resolve .zeroPage pc s = .fault f := andThen_eq_fault.2 (.inl h)

/-- The word after the opcode faults as its low byte does, or, that read, as its high byte does. -/
theorem readWord_after_of_low_fault {pc : Word} {s : State} {f : Fault} (h : readByte (pc + 1) s = .fault f) :
    readWord (pc + 1) s = .fault f := readWord_eq_fault.2 (.inl h)

theorem readWord_after_of_high_fault {pc : Word} {s : State} {lo : Byte} {f : Fault} (hlo : readByte (pc + 1) s = .next lo)
    (h : readByte (pc + 2) s = .fault f) : readWord (pc + 1) s = .fault f :=
  readWord_eq_fault.2 (.inr ⟨lo, hlo, by rw [BitVec.add_assoc]; exact h⟩)

/-- The word after the opcode is made of the two bytes after it. -/
theorem readWord_after_of_bytes {pc : Word} {s : State} {lo hi : Byte} (hlo : readByte (pc + 1) s = .next lo)
    (hhi : readByte (pc + 2) s = .next hi) : readWord (pc + 1) s = .next (wordOf hi lo) :=
  readWord_eq_next.2 ⟨lo, hi, hlo, by rw [BitVec.add_assoc]; exact hhi, rfl⟩

/-! ### The obligations on the resolver -/

theorem sext16_toInt (b : Byte) : (sext16 b).toInt = b.toInt := BitVec.toInt_signExtend_of_le (by decide)

theorem zext16_toNat (b : Byte) : (zext16 b).toNat = b.toNat := BitVec.toNat_setWidth_of_le (by decide)

/-- Settles O16: each mode goes on from the reads of its operand bytes, whose faults are known in the window. -/
theorem resolverReadsOperandBytes : Obligations.ResolverReadsOperandBytes := by
  intro s pc
  refine ⟨rfl, fun v hv => ?immediate, fun f => resolve_immediate_eq_fault.2, fun b hb => ?relative,
    fun f => resolve_relative_eq_fault.2, fun lo hi hlo hhi => ?absolute,
    fun f h => resolve_absolute_eq_fault.2 (readWord_after_of_low_fault h),
    fun lo f hlo h => resolve_absolute_eq_fault.2 (readWord_after_of_high_fault hlo h),
    fun hwindow hbus f => ⟨?_, ?_, ?_⟩⟩
  case immediate => rw [resolve, hv, andThen_next]
  case relative => exact ⟨sext16 b, by rw [resolve, hb, andThen_next], sext16_toInt b⟩
  case absolute =>
    exact ⟨wordOf hi lo, by rw [resolve, readWord_after_of_bytes hlo hhi, andThen_next], wordOf_toNat hi lo⟩
  · exact resolve_immediate_eq_fault.trans (readByte_after_eq_fault hwindow f)
  · exact resolve_relative_eq_fault.trans (readByte_after_eq_fault hwindow f)
  · exact resolve_absolute_eq_fault.trans (readWord_after_eq_fault hwindow hbus f)

/-- Settles O50: the two modes fault as the reads of their operand bytes do. -/
theorem latentModesFaultOnUnreadableOperands : Obligations.LatentModesFaultOnUnreadableOperands := by
  refine fun s pc => ⟨fun f h => ⟨resolve_zeroPage_of_fault h, resolve_absoluteX_eq_fault.2 (readWord_after_of_low_fault h)⟩,
    fun lo f hlo h => resolve_absoluteX_eq_fault.2 (readWord_after_of_high_fault hlo h),
    fun hwindow hbus => ⟨fun htop => ?zeroPage, fun f => ?absoluteX⟩⟩
  case zeroPage => exact resolve_zeroPage_of_fault ((readByte_after_eq_fault hwindow _).2 ⟨htop, rfl⟩)
  case absoluteX => exact resolve_absoluteX_eq_fault.trans (readWord_after_eq_fault hwindow hbus f)

/-- Settles O17: mode by mode; ZeroPage included, whatever its second read would answer. -/
theorem resolverReportsFormAndCount : Obligations.ResolverReportsFormAndCount := by
  intro mode pc s operand nbytes h
  cases mode with
  | implied | accumulator =>
    cases h
    simp [Mode.operandBytes]
  | immediate | relative | absolute | absoluteX =>
    obtain ⟨v, -, h⟩ := andThen_eq_next.1 h
    cases h
    simp [Mode.operandBytes]
  | zeroPage =>
    obtain ⟨b, -, h⟩ := andThen_eq_next.1 h
    obtain ⟨v, -, h⟩ := andThen_eq_next.1 h
    cases h
    simp [Mode.operandBytes]

/-- Settles O19: the signed byte is the sign-extended word as an integer. -/
theorem relativeTargetAddsSignedByte : Obligations.RelativeTargetAddsSignedByte := by
  intro pc0 b
  rw [relTarget, ← sext16_toInt b, BitVec.toInt_eq_toNat_cond, BitVec.toNat_add, BitVec.toNat_add,
    show (2 : Word).toNat = 2 from rfl]
  split <;> omega

end Sys2Proof.Machine

/-! The mode guard of the effect functions (40_addressing_resolver.md R73). -/

namespace Sys2Proof.Machine

/-- The wiring is its two pairs. -/
theorem Mnemonic.accepts_iff {m : Mnemonic} {mode : Mode} :
    m.accepts mode = true ↔ (m = .sei ∧ mode = .implied) ∨ (m = .jmp ∧ mode = .absolute) := by
  refine ⟨Mnemonic.accepts_cases, ?_⟩
  rintro (⟨rfl, rfl⟩ | ⟨rfl, rfl⟩) <;> rfl

/-- Under a mode that is not wired the guard answers, before any read (D7). -/
theorem runEffect_of_unwired {m : Mnemonic} {mode : Mode} (h : ¬ m.accepts mode = true) (s : State) :
    runEffect m mode s = .fault (.unsupportedAddressingMode m mode) := if_neg h

/-- Under a wired mode no effect function raises the guard's fault. -/
theorem runEffect_ne_modeFault_of_wired {m : Mnemonic} {mode : Mode} (h : m.accepts mode = true) (s : State)
    (m' : Mnemonic) (mode' : Mode) : runEffect m mode s ≠ .fault (.unsupportedAddressingMode m' mode') := by
  intro hfault
  obtain ⟨rfl, rfl⟩ | ⟨rfl, rfl⟩ := Mnemonic.accepts_cases h
  · rw [runEffect_sei] at hfault
    cases hfault
  · rw [runEffect_jmp] at hfault
    obtain ⟨_, hf⟩ := readWord_fault_invalidAddress (andThen_value_eq_fault.1 hfault)
    cases hf

/-- Settles O20: the guard answers under an unwired mode and never under a wired one. -/
theorem unwiredModesAreGuarded : Obligations.UnwiredModesAreGuarded := by
  intro m mode s
  rw [← Mnemonic.accepts_iff]
  exact ⟨fun hfault hwired => runEffect_ne_modeFault_of_wired hwired s m mode hfault, fun h => runEffect_of_unwired h s⟩

/-- A tick over a table whose entries are all well formed raises no fault of the guard: it runs wired effects only. -/
theorem tickWith_ne_modeFault {table : List TableEntry} (hwf : tableWellFormed table) (s : State) (m : Mnemonic)
    (mode : Mode) : tickWith table s ≠ .fault (.unsupportedAddressingMode m mode) := by
  intro h
  rw [tickWith] at h
  cases hpower : s.power with
  | off => rw [hpower] at h; cases h
  | on =>
    rw [hpower] at h
    obtain hfetch | ⟨b0, -, h⟩ := andThen_eq_fault.1 h
    · cases (readByte_eq_fault.1 hfetch).2
    · obtain ⟨hentries, -⟩ := hwf
      cases hrow : lookupIn table b0 with
      | none => rw [hrow] at h; cases h
      | some e =>
        rw [hrow] at h
        exact runEffect_ne_modeFault_of_wired (hentries e (List.mem_of_find?_eq_some hrow)) s m mode h

/-- Settles O21: the fixed table is one of the well-formed ones. -/
theorem wellFormedTableNeverFaultsOnMode : Obligations.WellFormedTableNeverFaultsOnMode :=
  have ⟨_, hfixed⟩ := dispatchTableHasTwoEntries
  ⟨fun _ s m mode hwf => tickWith_ne_modeFault hwf s m mode, tickWith_ne_modeFault hfixed⟩

/-- Settles O18: no zero-page address is in the window, and none of the three modes is wired. -/
theorem latentModesInventNoState : Obligations.LatentModesInventNoState := by
  refine fun s pc => ⟨rfl, fun b hb => ?zeroPage, fun w hw => ?absoluteX, fun m => ?guard⟩
  case zeroPage =>
    have hbelow : (zext16 b).toNat < 0x8000 := by
      have hb := b.isLt
      rw [zext16_toNat]
      omega
    refine ⟨zext16 b, zext16_toNat b, ?_⟩
    rw [resolve, hb, andThen_next, readByte_below_window hbelow, andThen_fault]
  case absoluteX => rw [resolve, hw, andThen_next]
  case guard =>
    refine ⟨runEffect_of_unwired ?_ s, runEffect_of_unwired ?_ s, runEffect_of_unwired ?_ s⟩ <;> cases m <;> decide

end Sys2Proof.Machine

/-! The outcomes of a tick (60_exceptions.md section 1): when it faults with what, and that it is not refused where there is bus
content. -/

namespace Sys2Proof.Machine

/-- A `JMP` faults as the read of its operand word does. -/
theorem step_of_operand_fault {s : State} {f : Fault} (hon : s.power = .on) (hfetch : readByte s.pc s = .next 0x4C)
    (hoperand : readWord (s.pc + 1) s = .fault f) : step s = .fault f := by
  rw [step_of_jmp_fetch hon hfetch, hoperand, andThen_fault]

/-- A `JMP` whose operand word is read goes there. -/
theorem step_of_jmp {s : State} {w : Word} (hon : s.power = .on) (hfetch : readByte s.pc s = .next 0x4C)
    (hoperand : readWord (s.pc + 1) s = .next w) : step s = .next { s with pc := w } := by
  rw [step_of_jmp_fetch hon hfetch, hoperand, andThen_next, execJmp_eq]

/-- `SEI` sets `I` and goes on to the next byte. -/
theorem step_of_sei {s : State} (hon : s.power = .on) (hfetch : readByte s.pc s = .next 0x78) :
    step s = .next { s with pc := s.pc + 1, p := { s.p with i := true } } :=
  (step_of_sei_fetch hon hfetch).trans (execSei_eq s)

/-- Settles O24: the tick by the rule of its opcode, the other modes by the guard. -/
theorem seiTicks : Obligations.SeiTicks := by
  refine ⟨fun s => step_of_sei, fun s => (runEffect_sei s).trans (execSei_eq s), fun s mode hmode => runEffect_of_unwired ?guard s⟩
  case guard => simp [Mnemonic.accepts_iff, hmode]

/-- Settles O25: the tick as its operand word is read or not, the other modes by the guard. -/
theorem jmpTicks : Obligations.JmpTicks := by
  refine ⟨fun s hon hfetch => ⟨fun hle => ?jumps, fun htop => ?faults⟩, fun s mode hmode => runEffect_of_unwired ?guard s⟩
  case guard => simp [Mnemonic.accepts_iff, hmode]
  all_goals obtain ⟨hwindow, hbus⟩ := window_of_readByte hfetch
  case jumps =>
    have hnext : (s.pc + 1).toNat = s.pc.toNat + 1 := by bv_omega
    obtain ⟨lo, hi, w, hlo, hhi, hw, htarget⟩ := readWord_answers hbus (a := s.pc + 1) (by omega) (by omega)
    rw [BitVec.add_assoc] at hhi
    exact ⟨lo, hi, w, hlo, hhi, htarget, step_of_jmp hon hfetch hw⟩
  case faults =>
    have hfault := step_of_operand_fault hon hfetch ((readWord_after_eq_fault hwindow hbus _).2 ⟨htop, rfl⟩)
    exact ⟨hfault, by rw [hfault, stateAfter_fault]⟩

/-- Settles O30: of the causes of a fault, the opcode fetch and the operand read raise `InvalidAddress`; each is decided by `pc`. -/
theorem invalidAddressExactly : Obligations.InvalidAddressExactly := by
  refine fun s a => ⟨fun h => ?raised, fun ⟨hon, hcause⟩ => ?raises⟩
  case raised =>
    obtain ⟨-, hf⟩ | ⟨hon, hfetch | ⟨hfetch, hoperand⟩ | ⟨b0, -, -, -, hf⟩⟩ := step_fault_cases h
    · cases hf
    · obtain ⟨hbelow, hf⟩ := readByte_eq_fault.1 hfetch
      cases hf
      exact ⟨hon, .inl ⟨hbelow, rfl⟩⟩
    · obtain ⟨hwindow, hbus⟩ := window_of_readByte hfetch
      obtain ⟨htop, hf⟩ := (readWord_after_eq_fault hwindow hbus _).1 hoperand
      cases hf
      exact ⟨hon, .inr ⟨hfetch, htop, rfl⟩⟩
    · cases hf
  case raises =>
    obtain ⟨hbelow, rfl⟩ | ⟨hfetch, htop, rfl⟩ := hcause
    · exact step_of_fetch_fault hon (readByte_below_window hbelow s)
    · obtain ⟨hwindow, hbus⟩ := window_of_readByte hfetch
      exact step_of_operand_fault hon hfetch ((readWord_after_eq_fault hwindow hbus _).2 ⟨htop, rfl⟩)

/-! ### No refusal where there is bus content -/

/-- If a sequence of two operations is refused, the first was, or the second was after the first answered. -/
theorem andThen_eq_refused {α β : Type} {r : Result α} {f : α → Result β} {e : Refusal} :
    andThen r f = .refused e ↔ r = .refused e ∨ ∃ a, r = .next a ∧ f a = .refused e := by
  cases r <;> simp [andThen]

/-- With bus content no byte read is refused. -/
theorem readByte_ne_refused {s : State} (hbus : s.bus ≠ none) (a : Word) (r : Refusal) : readByte a s ≠ .refused r := by
  obtain ⟨-, h⟩ | ⟨-, hnone, -⟩ | ⟨-, bus, -, h⟩ := readByte_cases a s
  · rw [h]; nofun
  · exact absurd hnone hbus
  · rw [h]; nofun

/-- With bus content no word read is refused. -/
theorem readWord_ne_refused {s : State} (hbus : s.bus ≠ none) (a : Word) (r : Refusal) : readWord a s ≠ .refused r := by
  simp [readWord, andThen_eq_refused, readByte_ne_refused hbus]

/-- A tick is refused only while `On` without bus content. -/
theorem step_ne_refused {s : State} (hbus : s.power = .on → s.bus ≠ none) (r : Refusal) : step s ≠ .refused r := by
  intro h
  cases hpower : s.power with
  | off => rw [step_of_off hpower] at h; cases h
  | on =>
    rw [step_of_on hpower] at h
    obtain hfetch | ⟨b0, -, h⟩ := andThen_eq_refused.1 h
    · exact readByte_ne_refused (hbus hpower) s.pc r hfetch
    split_ifs at h with h78 h4C
    · cases h
    · obtain hoperand | ⟨w, -, hjmp⟩ := andThen_eq_refused.1 h
      · exact readWord_ne_refused (hbus hpower) (s.pc + 1) r hoperand
      · cases hjmp
    · cases h

/-- By the invariant the bus has content exactly when the slot is filled. -/
theorem State.BusMatchesCartridge.bus_ne_none_iff {s : State} (h : s.BusMatchesCartridge) :
    s.bus ≠ none ↔ s.cart ≠ none := by
  have hnone := congrArg (· = none) h
  simpa using not_congr (iff_of_eq hnone)

/-- By the invariant the bus has content while the power is on. -/
theorem State.Inv.bus_ne_none {s : State} (h : s.Inv) (hon : s.power = .on) : s.bus ≠ none := by
  obtain ⟨honHasCart, hmatch, -, -⟩ := h
  exact hmatch.bus_ne_none_iff.2 (honHasCart hon)

/-- Settles O31: the step is not refused; its faults while `On` are those of the fetch, of the operand read and of the lookup. -/
theorem tickOutcomesWhileOn : Obligations.TickOutcomesWhileOn := by
  intro s hinv hon
  cases hstep : step s with
  | next t => exact .inl ⟨t, rfl⟩
  | refused r => exact absurd hstep (step_ne_refused hinv.bus_ne_none r)
  | fault f =>
    obtain ⟨address, rfl⟩ | ⟨b0, -, -, -, rfl⟩ := step_fault_cases_of_on hon hstep
    · obtain ⟨-, ⟨-, rfl⟩ | ⟨-, -, rfl⟩⟩ := (invalidAddressExactly s address).1 hstep
      · exact .inr (.inl rfl)
      · exact .inr (.inr (.inl rfl))
    · exact .inr (.inr (.inr ⟨b0, rfl⟩))

/-! ### Steps of two states -/

/-- Two states with the same two bytes after the opcode have the same operand word. -/
theorem readWord_after_congr {s s' : State} {a a' : Word} (hlo : readByte (a + 1) s = readByte (a' + 1) s')
    (hhi : readByte (a + 2) s = readByte (a' + 2) s') : readWord (a + 1) s = readWord (a' + 1) s' := by
  have hsucc (x : Word) : x + 1 + 1 = x + 2 := BitVec.add_assoc x 1 1
  rw [readWord, readWord, hsucc, hsucc, hlo, hhi]

/-- What a tick reads decides its fault: two states alike in power, opcode and operand word, and in `pc`, fault alike. -/
theorem step_fault_of_same_reads {s s' : State} (hpower : s.power = s'.power) (hfetch : readByte s.pc s = readByte s'.pc s')
    (hoperand : readWord (s.pc + 1) s = readWord (s'.pc + 1) s') {f : Fault} (h : step s = .fault f) :
    step s' = .fault f := by
  obtain ⟨hoff, rfl⟩ | ⟨hon, hcause⟩ := step_fault_cases h
  · exact step_of_off (hpower ▸ hoff)
  · rw [hpower] at hon
    rw [hfetch, hoperand] at hcause
    obtain hfault | ⟨hjmp, hfault⟩ | ⟨b0, hb0, h78, h4C, rfl⟩ := hcause
    · exact step_of_fetch_fault hon hfault
    · exact step_of_operand_fault hon hjmp hfault
    · exact step_of_illegal_fetch hon hb0 h78 h4C

/-- Settles O33: the same fault by `step_fault_of_same_reads` both ways, the same change by the two forms of a step. -/
theorem tickDependsOnlyOnFetchedBytes : Obligations.TickDependsOnlyOnFetchedBytes := by
  intro s s' hpower hpc hfetch hlo hhi
  have hoperand := readWord_after_congr hlo hhi
  refine ⟨fun f => ⟨step_fault_of_same_reads hpower hfetch hoperand,
    step_fault_of_same_reads hpower.symm hfetch.symm hoperand.symm⟩, fun t h => ?next⟩
  case next =>
    obtain ⟨hon, ⟨hopcode, hsei⟩ | ⟨w, hopcode, hw, hjmp⟩⟩ := step_next_cases h
    · cases hsei
      exact ⟨_, step_of_sei (hpower ▸ hon) (hfetch ▸ hopcode), congrArg (· + 1) hpc.symm, .inr ⟨rfl, rfl⟩⟩
    · cases hjmp
      exact ⟨_, step_of_jmp (hpower ▸ hon) (hfetch ▸ hopcode) (hoperand ▸ hw), rfl, .inl ⟨rfl, rfl⟩⟩

theorem word_add_right_comm (a b c : Word) : a + b + c = a + c + b := by
  rw [BitVec.add_assoc, BitVec.add_comm b, ← BitVec.add_assoc]

/-- Settles O36: each clause by the rule of its opcode, which the two copies have in common; the operand of a jump as well. -/
theorem mirroredCopiesRunAlike : Obligations.MirroredCopiesRunAlike := by
  intro s u bus hbus hsize hon hwindow hle hu
  have hpc : u.pc = s.pc + 0x4000 := by rw [hu, moveProgramCounter_pc]
  have hpower : u.power = s.power := by rw [hu, moveProgramCounter_power]
  have hread {a : Word} (ha : 0x8000 ≤ a.toNat) (ha' : a.toNat ≤ 0xBFFF) : readByte (a + 0x4000) u = readByte a s := by
    rw [hu]
    exact (readByte_congr (moveProgramCounter_bus s _) _).trans (readByte_mirror hbus hsize ha ha')
  have hopcode : readByte u.pc u = readByte s.pc s := by rw [hpc, hread hwindow hle]
  refine ⟨fun b => ?illegal, fun hsei => ?sei, fun hjmp hroom => ?jmp⟩
  case illegal => simp only [step_eq_unsupportedOperation, hpower, hopcode]
  case sei =>
    refine ⟨_, step_of_sei hon hsei, (step_of_sei (hpower.trans hon) (hopcode.trans hsei)).trans ?_⟩
    rw [hpc, word_add_right_comm]
    simp only [hu, moveProgramCounter]
  case jmp =>
    have hoperand : readWord (u.pc + 1) u = readWord (s.pc + 1) s := by
      apply readWord_after_congr <;> rw [hpc, word_add_right_comm] <;> exact hread (by bv_omega) (by bv_omega)
    have hbus' : s.bus ≠ none := by simp [hbus]
    obtain ⟨-, -, w, -, -, hw, -⟩ := readWord_answers hbus' (a := s.pc + 1) (by bv_omega) (by bv_omega)
    refine ⟨_, step_of_jmp hon hjmp hw, (step_of_jmp (hpower.trans hon) (hopcode.trans hjmp) (hoperand.trans hw)).trans ?_⟩
    simp only [hu, moveProgramCounter]

/-! ### Runs of ticks -/

/-- Settles O34: `SEI` wraps `pc` to 0x0000, which is below the window. -/
theorem seiAtTopWrapsThenFaults : Obligations.SeiAtTopWrapsThenFaults := by
  intro s hon htop hfetch
  have hpc : s.pc + 1 = 0x0000 := by rw [htop]; rfl
  have hstep := step_of_sei hon hfetch
  rw [hpc] at hstep
  have hbelow : (0x0000 : Word).toNat < 0x8000 := by decide
  exact ⟨_, hstep, rfl, rfl, step_of_fetch_fault hon (readByte_below_window hbelow _)⟩

/-- A state that a step leaves as it is stays so. -/
theorem ticks_of_step_self {s : State} (h : step s = .next s) (n : Nat) : ticks n s = .next s := by
  induction n with
  | zero => rfl
  | succ n ih => rw [ticks, h, andThen_next, ih]

/-- Settles O35: the jump leaves the state as it is, hence every number of ticks does. -/
theorem selfJumpRunsForever : Obligations.SelfJumpRunsForever := by
  intro s lo hi hon hfetch hlo hhi hself
  have htarget : wordOf hi lo = s.pc := BitVec.eq_of_toNat_eq ((wordOf_toNat hi lo).trans hself.symm)
  have hstep : step s = .next s := by
    rw [step_of_jmp hon hfetch (readWord_after_of_bytes hlo hhi), htarget]
  exact ⟨ticks_of_step_self hstep, fun n => ⟨s, ticks_of_step_self hstep n⟩⟩

end Sys2Proof.Machine

/-! Byte sequences (log entry 3): a canonical list of cells is determined by what it reads as, so the representation is exact. -/

namespace Sys2Proof.Machine

/-- The first listed offset reads as its own byte. -/
theorem lookupCell_head (x : Host.Cell) (rest : List Host.Cell) : lookupCell (x :: rest) x.1 = x.2 := if_pos rfl

/-- Behind the first listed offset the later cells answer. -/
theorem lookupCell_of_ne_head {x : Host.Cell} {k : Nat} (h : x.1 ≠ k) (rest : List Host.Cell) :
    lookupCell (x :: rest) k = lookupCell rest k := if_neg h

/-- Of two canonical lists of cells that read alike, the second does not begin after the first. -/
theorem CellsFrom.head_le {lo lo' : Nat} {x y : Host.Cell} {xs ys : List Host.Cell} (hx : CellsFrom lo (x :: xs))
    (hy : CellsFrom lo' (y :: ys)) (hread : ∀ k, lookupCell (x :: xs) k = lookupCell (y :: ys) k) : y.1 ≤ x.1 := by
  by_contra hlt
  have hbelow : lookupCell (y :: ys) x.1 = Config.unlistedByte :=
    lookupCell_below (hy.tail.cons le_rfl (hy.2 y (List.mem_cons_self ..)).2) (by omega)
  exact (hx.2 x (List.mem_cons_self ..)).2 (by rw [← hbelow, ← hread, lookupCell_head])

/-- Where a canonical list has a cell, it does not read as the empty list does. -/
theorem CellsFrom.not_read_unlisted {lo : Nat} {x : Host.Cell} {xs : List Host.Cell} (hx : CellsFrom lo (x :: xs)) :
    ¬ ∀ k, lookupCell (x :: xs) k = Config.unlistedByte := fun hread =>
  (hx.2 x (List.mem_cons_self ..)).2 (by rw [← hread x.1, lookupCell_head])

/-- Canonical cells that read alike are equal. -/
theorem CellsFrom.eq_of_lookupCell_eq {lo lo' : Nat} {xs ys : List Host.Cell} (hx : CellsFrom lo xs) (hy : CellsFrom lo' ys)
    (hread : ∀ k, lookupCell xs k = lookupCell ys k) : xs = ys := by
  induction xs generalizing lo lo' ys with
  | nil =>
    cases ys with
    | nil => rfl
    | cons y ys => exact absurd (fun k => (hread k).symm) hy.not_read_unlisted
  | cons x xs ih =>
    cases ys with
    | nil => exact absurd hread hx.not_read_unlisted
    | cons y ys =>
      have hoff : x.1 = y.1 := le_antisymm (hy.head_le hx fun k => (hread k).symm) (hx.head_le hy hread)
      have hhead : x = y := by
        refine Prod.ext hoff ?_
        rw [← lookupCell_head x xs, hread, hoff, lookupCell_head]
      subst hhead
      refine congrArg _ (ih hx.tail hy.tail fun k => ?_)
      by_cases hk : x.1 = k
      · subst hk
        rw [lookupCell_below hx.tail (Nat.lt_succ_self _), lookupCell_below hy.tail (Nat.lt_succ_self _)]
      · rw [← lookupCell_of_ne_head hk xs, hread, lookupCell_of_ne_head hk]

/-- An offset that no cell lists reads as unlisted. -/
theorem lookupCell_of_not_listed {cells : List Host.Cell} {k : Nat} (h : ∀ x ∈ cells, x.1 ≠ k) :
    lookupCell cells k = Config.unlistedByte := by
  induction cells with
  | nil => rfl
  | cons x rest ih =>
    obtain ⟨hx, hrest⟩ := List.forall_mem_cons.1 h
    rw [lookupCell_of_ne_head hx, ih hrest]

/-- Beyond its size a canonical sequence reads as unlisted. -/
theorem Memory.read_of_size_le {m : Memory} (h : m.wf) {k : Nat} (hk : m.size ≤ k) : m.read k = Config.unlistedByte := by
  obtain ⟨-, hcells⟩ := h
  refine lookupCell_of_not_listed fun x hx => ?_
  have hlt := (hcells x hx).1
  omega

theorem Memory.toList_ofList (bytes : List Byte) : (Memory.ofList bytes).toList = bytes := by
  refine List.ext_getElem (by simp [Memory.toList]) fun k hk hk' => ?_
  simp [Memory.toList, hk']

/-- A canonical sequence is the one of its bytes. -/
theorem Memory.ofList_toList {m : Memory} (h : m.wf) : Memory.ofList m.toList = m := by
  have hsize : m.toList.length = m.size := by simp [Memory.toList]
  have hcells : (Memory.ofList m.toList).cells = m.cells := by
    refine (Memory.ofList_wf m.toList).cells.eq_of_lookupCell_eq h.cells fun k => ?_
    change (Memory.ofList m.toList).read k = m.read k
    rw [Memory.read_ofList]
    by_cases hk : k < m.size
    · simp [Memory.toList, hk]
    · rw [List.getElem?_eq_none (by omega), Option.getD_none, Memory.read_of_size_le h (by omega)]
  calc Memory.ofList m.toList = ⟨m.size, (Memory.ofList m.toList).cells⟩ := by rw [← hsize]; rfl
    _ = m := by rw [hcells]

/-- Settles O15: listing after making and making after listing are both the identity. -/
theorem memoryRepresentsByteSequences : Obligations.MemoryRepresentsByteSequences :=
  ⟨fun bytes => ⟨Memory.ofList_wf bytes, Memory.toList_ofList bytes⟩, fun _ => Memory.ofList_toList⟩

end Sys2Proof.Machine

/-! The console's operations (70_reset_and_hazards.md): insertion, power-on, and what any host operation can do. -/

namespace Sys2Proof.Machine

/-- Settles O37: the state an insertion answers; the two bytes of the vector stand at offsets below the size. -/
theorem insertCartridgeLoadsAndResets : Obligations.InsertCartridgeLoadsAndResets := by
  intro s bytes declared trainer reason hsize
  have hpos : 0 < bytes.length := by
    have hsizes : ∀ n ∈ Config.storageSizes, 0 < n := by decide
    exact hsizes _ hsize
  have hbyte (k : Nat) : bytes[k % bytes.length]? = some ((Memory.ofList bytes).read (k % bytes.length)) := by
    rw [Memory.read_ofList, List.getElem?_eq_getElem (Nat.mod_lt k hpos), Option.getD_some]
  exact ⟨_, _, _, hbyte _, hbyte _, insertCartridge_next reason s hsize, wordOf_toNat _ _, Status.get_clear, rfl, rfl, rfl⟩

/-- Settles O38: the other lengths are not in the list of legal ones; a fault answers no state. -/
theorem insertCartridgeRejectsOtherSizes : Obligations.InsertCartridgeRejectsOtherSizes := by
  intro s bytes declared trainer reason h16 h32
  have hsize : bytes.length ∉ Config.storageSizes := by simp [Config.storageSizes, h16, h32]
  have hfault := insertCartridge_fault (image := ⟨declared, Memory.ofList bytes, trainer⟩) reason s hsize
  exact ⟨hfault, by rw [hfault, stateAfter_fault]⟩

/-- Settles O39: by the three cases of `power_on`. -/
theorem powerOnNeedsCartridge : Obligations.PowerOnNeedsCartridge := by
  intro s
  obtain ⟨hpower, h⟩ | ⟨hpower, hcart, h⟩ | ⟨hpower, hcart, h⟩ := powerOn_cases s <;> rw [h]
  · simp [hpower]
  · simp [hpower, hcart]
  · simp [hpower, hcart, setPower]

/-! ### What a host operation can do -/

/-- A host operation that answers a state loaded an image of a legal size, or turned the power on or found it on, or was a successful
tick. -/
theorem operate_next_cases {op : HostOp} {s t : State} (h : operate op s = .next t) :
    (∃ image reason, op = .insertCartridge image reason ∧ image.storageBytes.size ∈ Config.storageSizes ∧
      t.p = Status.clear ∧ t.bus = some { rom := image.storageBytes } ∧ t.power = s.power ∧ t.cart = some image) ∨
    (op = .powerOn ∧ (t = s ∨ (s.cart ≠ none ∧ t = setPower .on s))) ∨
    (op = .tick ∧ step s = .next t) := by
  cases op with
  | insertCartridge image reason =>
    by_cases hsize : image.storageBytes.size ∈ Config.storageSizes
    · have hnext := h.symm.trans (insertCartridge_next reason s hsize)
      cases hnext
      exact .inl ⟨image, reason, rfl, hsize, rfl, rfl, rfl, rfl⟩
    · cases h.symm.trans (insertCartridge_fault reason s hsize)
  | powerOn =>
    refine .inr (.inl ⟨rfl, ?_⟩)
    obtain ⟨-, hnext⟩ | ⟨-, -, hfault⟩ | ⟨-, hcart, hnext⟩ := powerOn_cases s
    · cases h.symm.trans hnext
      exact .inl rfl
    · cases h.symm.trans hfault
    · cases h.symm.trans hnext
      exact .inr ⟨hcart, rfl⟩
  | tick => exact .inr (.inr ⟨rfl, h⟩)

/-- The state after an operation is the one before or the one the operation answered (R117). -/
theorem stateAfter_cases (s : State) (r : Result State) :
    stateAfter s r = s ∨ ∃ t, r = .next t ∧ stateAfter s r = t := by
  cases r with
  | next t => exact .inr ⟨t, rfl, rfl⟩
  | fault f => exact .inl rfl
  | refused e => exact .inl rfl

/-- Settles O40: an insertion fills bus and slot and keeps the power; the other two operations keep bus and slot. -/
theorem powerAndCartridgeAreNeverLost : Obligations.PowerAndCartridgeAreNeverLost := by
  intro op s
  obtain hsame | ⟨t, h, hafter⟩ := stateAfter_cases s (operate op s)
  · rw [hsame]
    exact ⟨id, id, id⟩
  rw [hafter]
  obtain ⟨image, -, -, -, -, hbus, hpower, hcart⟩ | ⟨-, rfl | ⟨-, rfl⟩⟩ | ⟨-, hstep⟩ := operate_next_cases h
  · exact ⟨hpower.trans, fun _ => by simp [hcart], fun _ => by simp [hbus]⟩
  · exact ⟨id, id, id⟩
  · exact ⟨fun _ => rfl, id, id⟩
  · obtain ⟨hbus, hpower, hcart⟩ := step_sameConsole hstep
    rw [hbus, hpower, hcart]
    exact ⟨id, id, id⟩

/-- Settles O41: an insertion keeps the power, a power-on all but the power, and a tick all but `pc` and `I`, which it does not clear. -/
theorem onlyInsertionClearsOrReloads : Obligations.OnlyInsertionClearsOrReloads := by
  intro op s t h
  obtain ⟨image, reason, rfl, hsize, -, -, hpower, -⟩ | ⟨rfl, rfl | ⟨-, rfl⟩⟩ | ⟨rfl, hstep⟩ := operate_next_cases h
  · exact ⟨fun _ _ => ⟨image, reason, rfl⟩, fun _ => ⟨image, reason, rfl, hsize⟩, fun hne => absurd hpower hne⟩
  · simp
  · simp
  · obtain ⟨hbus, hpower, hcart⟩ := step_sameConsole hstep
    obtain hp | hp := step_flags hstep <;> simp +contextual [hbus, hpower, hcart, hp]

/-! ### The invariant and reachability -/

/-- Settles O8: at construction there is no power, no bus content and no flag set. -/
theorem constructionMeetsInvariant : Obligations.ConstructionMeetsInvariant := by
  refine ⟨?_, rfl, ?_, rfl⟩
  · nofun
  · nofun

/-- Turning the power on with a cartridge present keeps the invariant. -/
theorem State.Inv.setPower_on {s : State} (h : s.Inv) (hcart : s.cart ≠ none) : (setPower .on s).Inv := by
  obtain ⟨-, hmatch, hlegal, hflags⟩ := h
  exact ⟨fun _ => hcart, hmatch, hlegal, hflags⟩

/-- A state whose bus and slot hold one canonical image of a legal size, with no flag set but `I`, meets the invariant. -/
theorem State.Inv.of_loaded {s : State} {image : CartridgeImage} (hbus : s.bus = some { rom := image.storageBytes })
    (hcart : s.cart = some image) (hsize : image.storageBytes.size ∈ Config.storageSizes) (hwf : image.storageBytes.wf)
    (hflags : s.OnlyInterruptDisable) : s.Inv := by
  refine ⟨fun _ => by simp [hcart], ?_, ?_, hflags⟩
  · rw [State.BusMatchesCartridge, hbus, hcart, Option.map_some, Option.map_some]
  · intro bus hmem
    cases hbus.symm.trans hmem
    exact ⟨hsize, hwf⟩

/-- Settles O45: an insertion loads a state that meets the invariant, and power-on and tick keep it. -/
theorem hostOperationsKeepInvariant : Obligations.HostOperationsKeepInvariant := by
  intro op s hop hinv
  obtain hsame | ⟨t, h, hafter⟩ := stateAfter_cases s (operate op s)
  · rwa [hsame]
  rw [hafter]
  obtain ⟨image, reason, rfl, hsize, hp, hbus, -, hcart⟩ | ⟨-, rfl | ⟨hcart, rfl⟩⟩ | ⟨-, hstep⟩ := operate_next_cases h
  · refine .of_loaded hbus hcart hsize hop ?_
    rw [State.OnlyInterruptDisable, hp]
  · exact hinv
  · exact hinv.setPower_on hcart
  · exact stepKeepsInvariant s t hinv hstep

/-- Every state a host can reach meets the invariant. -/
theorem Reachable.inv {s : State} (h : Reachable s) : s.Inv := by
  induction h with
  | construction => exact constructionMeetsInvariant
  | operation op _ hop ih => exact hostOperationsKeepInvariant op _ hop ih

/-- With no flag set but `I` the packed register is 0x00 or 0x04. -/
theorem State.OnlyInterruptDisable.pByte_eq {s : State} (h : s.OnlyInterruptDisable) : s.pByte = 0x00 ∨ s.pByte = 0x04 := by
  rw [State.OnlyInterruptDisable] at h
  rw [State.pByte, h]
  cases s.p.i with
  | false => exact .inl rfl
  | true => exact .inr rfl

/-- From a state that meets the invariant the model refuses no operation. -/
theorem operate_ne_refused {s : State} (hinv : s.Inv) (op : HostOp) (r : Refusal) : operate op s ≠ .refused r := by
  intro h
  cases op with
  | insertCartridge image reason =>
    by_cases hsize : image.storageBytes.size ∈ Config.storageSizes
    · cases h.symm.trans (insertCartridge_next reason s hsize)
    · cases h.symm.trans (insertCartridge_fault reason s hsize)
  | powerOn =>
    obtain ⟨-, heq⟩ | ⟨-, -, heq⟩ | ⟨-, -, heq⟩ := powerOn_cases s <;> cases h.symm.trans heq
  | tick => exact step_ne_refused hinv.bus_ne_none r h

/-- Settles O46: the invariant along every run, and what it says of the flags and of refusals. -/
theorem reachableStatesMeetInvariant : Obligations.ReachableStatesMeetInvariant := by
  intro s hreach
  have hinv := hreach.inv
  have ⟨_, _, _, hflags⟩ := hinv
  exact ⟨hinv, hflags.pByte_eq, operate_ne_refused hinv⟩

end Sys2Proof.Machine

/-! The trainer flag and the declared size (10_state.md section 7, D12): every operation commutes with replacing them. -/

namespace Sys2Proof.Machine

/-- The image with another declared size and trainer flag. -/
def CartridgeImage.redeclare (declared : Nat) (trainer : Bool) (image : CartridgeImage) : CartridgeImage :=
  { image with storageSize := declared, trainerPresent := trainer }

/-- The state with another declared size and trainer flag in its cartridge. -/
def State.redeclare (declared : Nat) (trainer : Bool) (s : State) : State :=
  { s with cart := s.cart.map (CartridgeImage.redeclare declared trainer) }

/-- An operation's answer with the declared size and trainer flag replaced in the state it answers, if it answers one. -/
def redeclareResult (declared : Nat) (trainer : Bool) (r : Result State) : Result State :=
  andThen r fun t => .next (t.redeclare declared trainer)

theorem andThen_assoc {α β γ : Type} (r : Result α) (f : α → Result β) (g : β → Result γ) :
    andThen (andThen r f) g = andThen r fun a => andThen (f a) g := by
  cases r <;> rfl

section
variable (declared : Nat) (trainer : Bool) (s : State)

theorem step_redeclare : step (s.redeclare declared trainer) = redeclareResult declared trainer (step s) := by
  have hbyte : readByte (s.redeclare declared trainer).pc (s.redeclare declared trainer) = readByte s.pc s :=
    readByte_congr rfl _
  have hword : readWord ((s.redeclare declared trainer).pc + 1) (s.redeclare declared trainer) = readWord (s.pc + 1) s :=
    readWord_congr rfl _
  cases hpower : s.power with
  | off =>
    rw [step_of_off hpower, step_of_off (s := s.redeclare declared trainer) hpower]
    rfl
  | on =>
    rw [redeclareResult, step_of_on hpower, step_of_on (s := s.redeclare declared trainer) hpower, hbyte, hword, andThen_assoc]
    congr 1
    funext b0
    split_ifs with h78 h4C
    · rfl
    · rw [andThen_assoc]
      rfl
    · rfl

theorem powerOn_redeclare : powerOn (s.redeclare declared trainer) = redeclareResult declared trainer (powerOn s) := by
  obtain ⟨pc, p, bus, power, cart⟩ := s
  cases power with
  | on => rfl
  | off => cases cart <;> rfl

theorem insertCartridge_redeclare (image : CartridgeImage) (reason : String) :
    insertCartridge (image.redeclare declared trainer) reason (s.redeclare declared trainer) =
      redeclareResult declared trainer (insertCartridge image reason s) := by
  by_cases hsize : image.storageBytes.size ∈ Config.storageSizes
  · rw [insertCartridge_next reason s hsize]
    exact insertCartridge_next (image := image.redeclare declared trainer) reason _ hsize
  · rw [insertCartridge_fault reason s hsize]
    exact insertCartridge_fault (image := image.redeclare declared trainer) reason _ hsize

variable {declared trainer}

/-- An answer with the declared size and trainer flag replaced is the same fault. -/
theorem eq_fault_iff_of_redeclared {r r' : Result State} (h : r' = redeclareResult declared trainer r) (f : Fault) :
    r = .fault f ↔ r' = .fault f := by
  rw [h, redeclareResult, andThen_value_eq_fault]

/-- An answered state with the declared size and trainer flag replaced is the answered state. -/
theorem eq_next_of_redeclared {r r' : Result State} (h : r' = redeclareResult declared trainer r) (t : State)
    (hr : r = .next t) : r' = .next (t.redeclare declared trainer) := by
  rw [h, hr, redeclareResult, andThen_next]

end

/-- Settles O42: the replacement is one that each operation commutes with, and that no observation sees. -/
theorem trainerFlagHasNoEffect : Obligations.TrainerFlagHasNoEffect := by
  intro s image declared trainer reason
  have hstep := step_redeclare declared trainer s
  have hpower := powerOn_redeclare declared trainer s
  have hinsert := insertCartridge_redeclare declared trainer s image reason
  exact ⟨fun _ => rfl, eq_fault_iff_of_redeclared hstep, eq_next_of_redeclared hstep, eq_fault_iff_of_redeclared hpower,
    eq_next_of_redeclared hpower, eq_fault_iff_of_redeclared hinsert, eq_next_of_redeclared hinsert⟩

end Sys2Proof.Machine

/-! Runs (70_reset_and_hazards.md section 6): the equations of a run's first operation, and where a run ends. -/

namespace Sys2Proof.Machine

section
variable {op : HostOp} {s : State} (ops : List HostOp)

theorem run_cons_next {t : State} (h : operate op s = .next t) : run (op :: ops) s = run ops t := by
  rw [run, h]

theorem run_tick_fault {f : Fault} (h : step s = .fault f) : run (.tick :: ops) s = .ended s f := by
  rw [run, operate, h]
  rfl

theorem run_cons_fault {f : Fault} (h : operate op s = .fault f) (hop : op ≠ .tick) : run (op :: ops) s = run ops s := by
  rw [run, h]
  cases op with
  | tick => exact absurd rfl hop
  | insertCartridge | powerOn => rfl

theorem run_cons_refused {r : Refusal} (h : operate op s = .refused r) : run (op :: ops) s = .stuck s r := by
  rw [run, h]

end

/-- The list splits at a tick that faults with `f` from `u`, where the operations before it lead without an end. -/
def SplitsAtFault (ops : List HostOp) (s u : State) (f : Fault) : Prop :=
  ∃ before after, ops = before ++ .tick :: after ∧ run before s = .running u ∧ step u = .fault f

/-- The split is at the first operation or behind it. -/
theorem splitsAtFault_cons {op : HostOp} {ops : List HostOp} {s u : State} {f : Fault} :
    SplitsAtFault (op :: ops) s u f ↔
      (op = .tick ∧ s = u ∧ step s = .fault f) ∨
      (∃ before after, ops = before ++ .tick :: after ∧ run (op :: before) s = .running u ∧ step u = .fault f) := by
  constructor
  · rintro ⟨_ | ⟨head, before⟩, after, hops, hrun, hfault⟩
    · cases hops
      cases hrun
      exact .inl ⟨rfl, rfl, hfault⟩
    · cases hops
      exact .inr ⟨before, after, rfl, hrun, hfault⟩
  · rintro (⟨rfl, rfl, hfault⟩ | ⟨before, after, rfl, hrun, hfault⟩)
    · exact ⟨[], ops, rfl, rfl, hfault⟩
    · exact ⟨op :: before, after, rfl, hrun, hfault⟩

/-- Behind a first operation after which the run goes on at `t`, the split is one of the later operations from `t`. -/
theorem splitsAtFault_cons_of_running {op : HostOp} {ops : List HostOp} {s t u : State} {f : Fault}
    (hrun : ∀ later, run (op :: later) s = run later t) (hop : op = .tick → ∀ f, step s ≠ .fault f) :
    SplitsAtFault (op :: ops) s u f ↔ SplitsAtFault ops t u f := by
  simp only [splitsAtFault_cons, hrun]
  exact or_iff_right fun ⟨htick, _, hfault⟩ => hop htick f hfault

/-- A run ends where its operations split at a faulting tick: by induction, as the first operation goes on, ends the run, or stops it. -/
theorem run_eq_ended_iff {ops : List HostOp} {s u : State} {f : Fault} :
    run ops s = .ended u f ↔ SplitsAtFault ops s u f := by
  induction ops generalizing s with
  | nil => exact ⟨nofun, fun ⟨before, after, hops, _⟩ => by cases before <;> cases hops⟩
  | cons op ops ih =>
    cases hop : operate op s with
    | next t =>
      have hnoFault (htick : op = .tick) (g : Fault) : step s ≠ .fault g := by
        subst htick
        exact fun hfault => by cases hop.symm.trans hfault
      rw [splitsAtFault_cons_of_running (fun later => run_cons_next later hop) hnoFault, run_cons_next ops hop, ih]
    | refused r =>
      have hnoFault : ¬ (op = .tick ∧ s = u ∧ step s = .fault f) := by
        rintro ⟨rfl, -, hfault⟩
        cases hop.symm.trans hfault
      rw [run_cons_refused ops hop, splitsAtFault_cons, or_iff_right hnoFault]
      simp [run_cons_refused _ hop]
    | fault g =>
      by_cases htick : op = .tick
      · subst htick
        have hstep : step s = .fault g := hop
        rw [splitsAtFault_cons, run_tick_fault ops hstep, hstep]
        simp [run_tick_fault _ hstep]
      · rw [splitsAtFault_cons_of_running (fun later => run_cons_fault later hop htick) (absurd · htick),
          run_cons_fault ops hop htick, ih]

/-- Settles O43: by `run_eq_ended_iff`. -/
theorem runEndsAtFirstTickFault : Obligations.RunEndsAtFirstTickFault := fun _ _ _ _ => run_eq_ended_iff

end Sys2Proof.Machine

/-! Placing an instruction (log entries 1 and 9): the placed bytes are the ones the next tick fetches, and from construction the placing
is an insertion and a power-on. -/

namespace Sys2Proof.Machine

/-- Two addresses of the window that are less than the storage's size apart have different offsets. -/
theorem storageOffset_ne_of_near {a b : Word} {size : Nat} (ha : 0x8000 ≤ a.toNat) (hlt : a.toNat < b.toNat)
    (hnear : b.toNat - a.toNat < size) : storageOffset a size ≠ storageOffset b size := by
  rw [storageOffset_eq ha, storageOffset_eq (by omega)]
  intro hmod
  have hdiff := Nat.sub_mod_eq_zero_of_mod_eq hmod.symm
  rw [Nat.mod_eq_of_lt (by omega)] at hdiff
  omega

/-- The storage that an instruction is placed in is legal and canonical. -/
theorem loadBase_legal {s : State} (h : s.StorageLegal) : (loadBase s).size ∈ Config.storageSizes ∧ (loadBase s).wf := by
  rw [loadBase]
  cases hbus : s.bus with
  | none => exact ⟨by decide, blankStorage_wf⟩
  | some bus => exact h bus hbus

/-- Three placed bytes are the ones read from `pc` on. -/
theorem readByte_loadProgramBytes {s : State} (h : s.StorageLegal) (b0 b1 b2 : Byte) {t : State}
    (ht : t = loadProgramBytes [b0, b1, b2] s) :
    readByte t.pc t = .next b0 ∧ readByte (t.pc + 1) t = .next b1 ∧ readByte (t.pc + 2) t = .next b2 := by
  obtain ⟨hsize, hwf⟩ := loadBase_legal h
  have hlarge : 3 ≤ (loadBase s).size := by
    have hsizes : ∀ n ∈ Config.storageSizes, 3 ≤ n := by decide
    exact hsizes _ hsize
  obtain ⟨hlow, hhigh⟩ := loadPc_bounds s
  have hread {a : Word} (ha : 0x8000 ≤ a.toNat) :
      readByte a t = .next ((placeBytes (loadBase s) (loadPc s) [b0, b1, b2]).read (storageOffset a (loadBase s).size)) := by
    subst ht
    rw [readByte_in_window (loadProgramBytes_bus _ s) ha, MemoryBus.romSize, placeBytes_size]
  have hpc : t.pc = loadPc s := by rw [ht, loadProgramBytes_pc]
  have hplus1 : (loadPc s + 1).toNat = (loadPc s).toNat + 1 := by bv_omega
  have hplus2 : (loadPc s + 2).toNat = (loadPc s).toNat + 2 := by bv_omega
  have hsucc : loadPc s + 1 + 1 = loadPc s + 2 := BitVec.add_assoc ..
  have hne01 := storageOffset_ne_of_near (b := loadPc s + 1) hlow (by omega) (by omega : _ < (loadBase s).size)
  have hne02 := storageOffset_ne_of_near (b := loadPc s + 2) hlow (by omega) (by omega : _ < (loadBase s).size)
  have hne12 := storageOffset_ne_of_near (a := loadPc s + 1) (b := loadPc s + 2) (by omega) (by omega)
    (by omega : _ < (loadBase s).size)
  rw [hpc, hread hlow, hread (by omega), hread (by omega)]
  simp only [read_placeBytes_three hwf b0 b1 b2 (by omega), hsucc, if_true, if_neg hne01.symm, if_neg hne02.symm,
    if_neg hne12.symm, and_self]

/-- The step after placing bytes that decode runs what they decode to. -/
theorem step_withFetchWord {s : State} (h : s.StorageLegal) {nbits w : Nat} {i : Instr}
    (hdecode : decodeTableWord nbits w = some i) : step (s.withFetchWord nbits w) = exec i (s.withFetchWord nbits w) := by
  rw [decodeTableWord] at hdecode
  cases hbytes : decode (tableBytes nbits w) with
  | error e => rw [hbytes] at hdecode; cases hdecode
  | ok answer =>
    rw [hbytes] at hdecode
    cases hdecode
    obtain ⟨h0, h1, h2⟩ := readByte_loadProgramBytes h _ _ _ (t := s.withFetchWord nbits w) rfl
    suffices hfetched : ∀ (k : Nat) (b : Byte), (tableBytes nbits w)[k]? = some b →
        readByte ((s.withFetchWord nbits w).pc + BitVec.ofNat 16 k) (s.withFetchWord nbits w) = .next b by
      obtain ⟨hruns, -⟩ := stepRunsDecodedInstruction _ _ (loadProgramBytes_power _ s) hfetched
      obtain ⟨-, hstep⟩ := hruns _ _ hbytes
      exact hstep
    intro k b hk
    match k, hk with
    | 0, hk => cases hk; rw [BitVec.add_zero]; exact h0
    | 1, hk => cases hk; exact h1
    | 2, hk => cases hk; exact h2
    | k + 3, hk => cases hk

/-- Placing an instruction keeps the invariant: bus and slot hold one image, of the size there was. -/
theorem withFetchWord_inv {s : State} (h : s.Inv) (nbits w : Nat) : (s.withFetchWord nbits w).Inv := by
  obtain ⟨-, -, hlegal, hflags⟩ := h
  obtain ⟨hsize, hwf⟩ := loadBase_legal hlegal
  refine .of_loaded ?_ (loadProgramBytes_cart _ s) ?_ ?_ hflags <;> rw [loadImage_storageBytes]
  · exact loadProgramBytes_bus _ s
  · rwa [placeBytes_size]
  · exact placeBytes_wf hwf _ _

/-- Settles O49: the step by the placed bytes, the rest by the fields of the loaded state. -/
theorem fetchWordRunsItsInstruction : Obligations.FetchWordRunsItsInstruction := by
  intro s nbits w hinv
  have ⟨_, _, hlegal, _⟩ := hinv
  refine ⟨fun i => step_withFetchWord hlegal, withFetchWord_inv hinv nbits w, rfl, fun bus hbus => ?size,
    fun hlow hhigh => ?pc⟩
  case size =>
    have hbase : loadBase s = bus.rom := by rw [loadBase, hbus]
    exact ⟨_, loadProgramBytes_bus _ s, by rw [MemoryBus.romSize, placeBytes_size, hbase, MemoryBus.romSize]⟩
  case pc => exact if_pos (decide_eq_true ⟨hlow, hhigh⟩)

/-- The image that `withFetchWord` puts into the slot at construction. -/
def fetchWordImage (nbits w : Nat) : CartridgeImage :=
  loadImage (placeBytes blankStorage loadAddress (tableBytes nbits w)) State.reset

theorem fetchWordImage_size (nbits w : Nat) : (fetchWordImage nbits w).storageBytes.size = 32768 :=
  placeBytes_size blankStorage loadAddress (tableBytes nbits w)

theorem fetchWordImage_wf (nbits w : Nat) : (fetchWordImage nbits w).storageBytes.wf :=
  placeBytes_wf blankStorage_wf loadAddress (tableBytes nbits w)

/-- The placed bytes stand at the offsets 0, 1 and 2; behind them the image is blank. -/
theorem fetchWordImage_read {k : Nat} (hk : 3 ≤ k) (nbits w : Nat) :
    (fetchWordImage nbits w).storageBytes.read k = blankStorage.read k := by
  have h0 : storageOffset loadAddress blankStorage.size = 0 := by decide
  have h1 : storageOffset (loadAddress + 1) blankStorage.size = 1 := by decide
  have h2 : storageOffset (loadAddress + 1 + 1) blankStorage.size = 2 := by decide
  have hread := read_placeBytes_three blankStorage_wf (a := loadAddress) (BitVec.ofNat 8 (w % 2 ^ nbits))
    (BitVec.ofNat 8 (w % 2 ^ nbits / 256)) (BitVec.ofNat 8 (w % 2 ^ nbits / 65536)) (by decide) k
  rw [h0, h1, h2, if_neg (by omega), if_neg (by omega), if_neg (by omega)] at hread
  exact hread

/-- Inserting that image at construction leaves the power off and takes `pc` from the blank image's vector. -/
theorem insertCartridge_fetchWordImage (nbits w : Nat) (reason : String) :
    insertCartridge (fetchWordImage nbits w) reason State.reset =
      .next (setPower .off (State.reset.withFetchWord nbits w)) := by
  have hlegal : (fetchWordImage nbits w).storageBytes.size ∈ Config.storageSizes := by
    rw [fetchWordImage_size]
    decide
  rw [insertCartridge_next reason State.reset hlegal, fetchWordImage_size, fetchWordImage_read (by decide),
    fetchWordImage_read (by decide)]
  have hvector : wordOf (blankStorage.read (0x7FFD % 32768)) (blankStorage.read (0x7FFC % 32768)) = loadAddress := by decide
  exact congrArg _ (State.ext_fields hvector rfl rfl rfl rfl)

/-- Settles O48: the insertion leaves all but the power as placed, and the power-on is what is missing. -/
theorem fetchWordIsInsertionAndPowerOn : Obligations.FetchWordIsInsertionAndPowerOn := fun nbits w reason =>
  ⟨fetchWordImage nbits w, _, fetchWordImage_wf nbits w, fetchWordImage_size nbits w,
    insertCartridge_fetchWordImage nbits w reason, rfl⟩

/-- A host can bring the core to run any word from construction. -/
theorem reachable_withFetchWord (nbits w : Nat) : Reachable (State.reset.withFetchWord nbits w) := by
  obtain ⟨image, s, hwf, -, hinsert, hpower⟩ := fetchWordIsInsertionAndPowerOn nbits w ""
  have hloaded := Reachable.operation (.insertCartridge image "") .construction hwf
  rw [hinsert, stateAfter_next] at hloaded
  have hon := Reachable.operation .powerOn hloaded trivial
  rwa [hpower, stateAfter_next] at hon

/-- Settles O47: `JMP $0000`, placed by a host at 0x8000, leaves the window. -/
theorem programCounterLeavesWindow : Obligations.ProgramCounterLeavesWindow := by
  obtain ⟨-, -, hlegal, -⟩ := constructionMeetsInvariant
  have hstep : step (State.reset.withFetchWord 24 0x00004C) = exec (.jmp 0x0000) (State.reset.withFetchWord 24 0x00004C) :=
    step_withFetchWord hlegal (by decide)
  have hwindow : 0x8000 ≤ (loadPc State.reset).toNat := (loadPc_bounds State.reset).1
  have hbelow : (0x0000 : Word).toNat < 0x8000 := by decide
  exact ⟨_, _, reachable_withFetchWord 24 0x00004C, hwindow, hstep.trans (execJmp_eq _ _), hbelow,
    step_of_fetch_fault rfl (readByte_below_window hbelow _)⟩

end Sys2Proof.Machine

/-! The packed view of the status register (10_state.md section 3; D2, D3). -/

namespace Sys2Proof.Machine

/-- A bit appended at the low end stands at position 0, and every other one higher. -/
theorem getLsbD_append_ofBool {n : Nat} (x : BitVec n) (b : Bool) (k : Nat) :
    (x ++ BitVec.ofBool b).getLsbD k = if k = 0 then b else x.getLsbD (k - 1) := by
  rw [BitVec.getLsbD_append]
  cases k <;> simp

/-- Each flag stands at its bit of the packed view, and the bit without storage at bit 5. -/
theorem Status.pack_bits (unused : Bool) (p : Status) :
    (p.pack unused).getLsbD 7 = p.n ∧ (p.pack unused).getLsbD 6 = p.v ∧ (p.pack unused).getLsbD 5 = unused ∧
    (p.pack unused).getLsbD 4 = p.b ∧ (p.pack unused).getLsbD 3 = p.d ∧ (p.pack unused).getLsbD 2 = p.i ∧
    (p.pack unused).getLsbD 1 = p.z ∧ (p.pack unused).getLsbD 0 = p.c := by
  simp only [Status.pack, getLsbD_append_ofBool]
  simp

/-- Registers with one packed view are equal: every flag is read off its bit. -/
theorem Status.pack_injective (unused : Bool) {p q : Status} (h : p.pack unused = q.pack unused) : p = q := by
  obtain ⟨hn, hv, -, hb, hd, hi, hz, hc⟩ := p.pack_bits unused
  obtain ⟨hn', hv', -, hb', hd', hi', hz', hc'⟩ := q.pack_bits unused
  rw [h] at hn hv hb hd hi hz hc
  rw [Status.mk.injEq]
  exact ⟨hc.symm.trans hc', hz.symm.trans hz', hi.symm.trans hi', hd.symm.trans hd', hb.symm.trans hb', hv.symm.trans hv',
    hn.symm.trans hn'⟩

/-- Settles O11: the bits by `Status.pack_bits`, hence injectivity. -/
theorem packedStatusHoldsEachFlag : Obligations.PackedStatusHoldsEachFlag := by
  refine ⟨Status.pack_bits, fun s => ?unused, fun s t => Status.pack_injective Config.pUnusedBit⟩
  case unused =>
    obtain ⟨-, -, hunused, -⟩ := s.p.pack_bits Config.pUnusedBit
    exact hunused

end Sys2Proof.Machine
